-- ==== Sys2Proof/Word.lean ====
section
/-! DEFINITION. The bit patterns the core moves (R6, R21, R30 to R32) and the one arithmetic helper of rule R7 that
names a bit position. The core has no integer word of its own (R15 a): its widest vector is an F80. -/

namespace Sys2Proof

/-- A packed F32 pattern (R30). -/
abbrev F32 := BitVec 32

/-- A packed F64 pattern (R31). -/
abbrev F64 := BitVec 64

/-- A packed F80 pattern: what a stack slot and the data ports hold (R10, R21, R32). -/
abbrev F80 := BitVec 80

/-- A stack index, `top` or the `i` of `st(i)`: three bits, so arithmetic on it is modulo 8 (R11, R12, R37). -/
abbrev StackIndex := BitVec 3

/-- The triple `(s, e, m)` of rule R8 with an exponent field of `ew` bits and a stored significand of `sw` bits.
For F80, `m` is the full 64-bit significand with its integer bit at `m[63]`. -/
structure Fields (ew sw : Nat) where
  s : BitVec 1
  e : BitVec ew
  m : BitVec sw
  deriving DecidableEq, Repr

/-- What the host presents to have a command done: the command word and the data input (R34). -/
structure Command where
  cmd : BitVec 8
  din : F80
  deriving DecidableEq, Repr

end Sys2Proof
end

