-- ==== Sys2Proof/Config.lean ====
section
/-! DEFINITION. What is fixed for the machine (R5, R6) and the one free value of the spec: the pattern
`unspecified(80)` the adder returns where the source defines no result (R110, R132; decision D14). -/

namespace Sys2Proof.Config

/-- Depth of the register stack (R6). -/
abbrev stackDepth : Nat := 8

/-- The pattern the adder returns for `a`, `b` and `sub` where the source defines no result, `unspecified(80)` (R8,
R110). It has no body, so nothing can be proved of its value: what is proved holds for every 80-bit pattern, as
decision D14 asks ("any value"). R111 has the result depend on `a`, `b` and `sub` alone, so these are its arguments;
with a further one, equal slots, `top` and commands could give unequal outputs, against R16. Log entry 1. -/
opaque freeValue : (a b : F80) → (sub : BitVec 1) → F80

end Sys2Proof.Config
end

