-- ==== Sys2Proof/Syntax.lean ====
section
/-! DEFINITION. The twelve commands (R35, R39; one constructor per row of the opcode table) and the assembler's
forms of them (R41). -/

namespace Sys2Proof

/-- A legal command with its operands: the `<value>` placed on `din` (R41, right-justified by R21) or the
stack-relative index `i` of `st(i)` (R37). -/
inductive Instr where
  /-- `load_F32 <value>` (R120). -/
  | loadF32 (value : F32)
  /-- `load_F64 <value>` (R121). -/
  | loadF64 (value : F64)
  /-- `load_F80 <value>` (R122). -/
  | loadF80 (value : F80)
  /-- `load_from_stack i` (R123). -/
  | loadFromStack (i : StackIndex)
  /-- `store_and_pop_F32` (R126). -/
  | storeAndPopF32
  /-- `store_and_pop_F64` (R125). -/
  | storeAndPopF64
  /-- `store_and_pop_F80` (R124). -/
  | storeAndPopF80
  /-- `add_F32 <value>` (R127). -/
  | addF32 (value : F32)
  /-- `add_F64 <value>` (R128). -/
  | addF64 (value : F64)
  /-- `add_F80 <value>` (R129). -/
  | addF80 (value : F80)
  /-- `add_stack i` (R130). -/
  | addStack (i : StackIndex)
  /-- `add_pop i` (R131). -/
  | addPop (i : StackIndex)
  deriving DecidableEq, Repr

/-- How an assembler operand `<value>` may be written (R41): a bit pattern, or the text form of R42. -/
inductive AsmValue where
  | pattern (n : Nat)
  | text (cs : List Char)
  deriving DecidableEq, Repr

/-- An assembler line (R41). An index left out is the form with no operand (R37). -/
inductive Asm where
  | loadF32 (v : AsmValue)
  | loadF64 (v : AsmValue)
  | loadF80 (v : AsmValue)
  | loadFromStack (i : Option Nat)
  | storeAndPopF32
  | storeAndPopF64
  | storeAndPopF80
  | addF32 (v : AsmValue)
  | addF64 (v : AsmValue)
  | addF80 (v : AsmValue)
  | addStack (i : Option Nat)
  | addPop (i : Option Nat)
  deriving DecidableEq, Repr

end Sys2Proof
end

