-- ==== Sys2Proof/Machine/Formats.lean ====
section
/-! DEFINITION. `fp_format`, the format encoder and decoder (40_formats.md, R45 to R53), and the byte image of a
pattern (R22). Pure functions, defined on every input. -/

namespace Sys2Proof.Machine

/-! Parameters (R5), from the exponent width and the stored significand width. -/

/-- `exp_max = 2^exp_width - 1` (R5). -/
def expMax (ew : Nat) : Nat := 2 ^ ew - 1

/-- `bias = 2^(exp_width-1) - 1` (R5): 127, 1023, 16383. -/
def bias (ew : Nat) : Nat := 2 ^ (ew - 1) - 1

/-- `sig_max = 2^sig_width - 1` (R5). -/
def sigMax (sw : Nat) : Nat := 2 ^ sw - 1

/-- `shift = 63 - sig_width`: alignment of a narrow fraction under the F80 integer bit (R5). -/
def narrowShift (sw : Nat) : Nat := 63 - sw

/-! Unpack and pack (R45 to R48). -/

/-- `unpack_F32` (R45). -/
def unpackF32 (b : F32) : Fields 8 23 := ⟨b.extractLsb' 31 1, b.extractLsb' 23 8, b.extractLsb' 0 23⟩

/-- `unpack_F64` (R46). -/
def unpackF64 (b : F64) : Fields 11 52 := ⟨b.extractLsb' 63 1, b.extractLsb' 52 11, b.extractLsb' 0 52⟩

/-- `unpack_F80` (R47): the integer bit exactly as stored. -/
def unpackF80 (b : F80) : Fields 15 64 := ⟨b.extractLsb' 79 1, b.extractLsb' 64 15, b.extractLsb' 0 64⟩

/-- `pack_F32` (R48): `b = {s, e, m}`. -/
def packF32 (t : Fields 8 23) : F32 := t.s ++ t.e ++ t.m

/-- `pack_F64` (R48). -/
def packF64 (t : Fields 11 52) : F64 := t.s ++ t.e ++ t.m

/-- `pack_F80` (R48): it neither sets nor checks the integer bit. -/
def packF80 (t : Fields 15 64) : F80 := t.s ++ t.e ++ t.m

/-! Special encodings (R49). -/

/-- Zero of any format, `(s, 0, 0)` (R49). -/
def zeroFields (ew sw : Nat) (s : BitVec 1) : Fields ew sw := ⟨s, 0, 0⟩

/-- A narrow infinity, `(s, exp_max, 0)` (R49). -/
def infNarrow (ew sw : Nat) (s : BitVec 1) : Fields ew sw := ⟨s, BitVec.ofNat ew (expMax ew), 0⟩

/-- The F80 infinity, `(s, 0x7FFF, 0x8000_0000_0000_0000)` (R49). -/
def infF80 (s : BitVec 1) : Fields 15 64 := ⟨s, 0x7FFF, 0x8000000000000000⟩

/-! Classification (R51, R52). -/

/-- The classes of a narrow pattern (R51). -/
inductive NarrowClass where
  | zero | denormal | infinity | quietNaN | signallingNaN | normal
  deriving DecidableEq, Repr

/-- The classes of an F80 pattern (R52). -/
inductive F80Class where
  | zero | denormal | pseudoDenormal | normal | unnormal | infinity | pseudoInfinity
  | quietNaN | signallingNaN | pseudoNaN
  deriving DecidableEq, Repr

/-- The conditions of R51 in their order; the quiet bit is the leading fraction bit. -/
def classifyNarrow {ew sw : Nat} (t : Fields ew sw) : NarrowClass :=
  if t.e = 0 ∧ t.m = 0 then .zero
  else if t.e = 0 then .denormal
  else if t.e.toNat = expMax ew ∧ t.m = 0 then .infinity
  else if t.e.toNat = expMax ew ∧ t.m.getLsbD (sw - 1) = true then .quietNaN
  else if t.e.toNat = expMax ew then .signallingNaN
  else .normal

/-- `classify_F32` (R51). -/
def classifyF32 (b : F32) : NarrowClass := classifyNarrow (unpackF32 b)

/-- `classify_F64` (R51). -/
def classifyF64 (b : F64) : NarrowClass := classifyNarrow (unpackF64 b)

/-- The integer bit `m[63]` (R32). -/
def intBit (m : BitVec 64) : Bool := m.getLsbD 63

/-- The fraction `m[62:0]` (R9). -/
def fraction (m : BitVec 64) : BitVec 63 := m.extractLsb' 0 63

/-- The conditions of R52 in their order, on the fields. -/
def classifyFields80 (t : Fields 15 64) : F80Class :=
  if t.e = 0 then
    if t.m = 0 then .zero else if intBit t.m then .pseudoDenormal else .denormal
  else if t.e = 0x7FFF then
    if t.m = 0x8000000000000000 then .infinity
    else if t.m = 0 then .pseudoInfinity
    else if intBit t.m then
      if t.m.getLsbD 62 then .quietNaN else .signallingNaN
    else .pseudoNaN
  else if intBit t.m then .normal else .unnormal

/-- `classify_F80` (R52). -/
def classifyF80 (b : F80) : F80Class := classifyFields80 (unpackF80 b)

/-- The `canonical` column of R52 (the word is defined in R9). -/
def F80Class.canonical : F80Class → Bool
  | .zero => true
  | .denormal => true
  | .pseudoDenormal => false
  | .normal => true
  | .unnormal => false
  | .infinity => true
  | .pseudoInfinity => false
  | .quietNaN => true
  | .signallingNaN => true
  | .pseudoNaN => false

/-! Equality (R53) and the byte image (R22). -/

/-- `equal`: one bit, set when every bit agrees (R53). It is not numeric equality. -/
def equalBits {w : Nat} (x y : BitVec w) : BitVec 1 := if x = y then 1 else 0

/-- Byte `k` of the image holds bits `[8k+7:8k]` (R22, decision D4). -/
def byteImage (n : Nat) (b : BitVec (8 * n)) : List (BitVec 8) :=
  (List.range n).map fun k => b.extractLsb' (8 * k) 8

/-- The pattern whose byte image is the list (R22). -/
def ofByteImage : (bytes : List (BitVec 8)) → Nat
  | [] => 0
  | x :: rest => x.toNat + 256 * ofByteImage rest

end Sys2Proof.Machine
end

