-- ==== Sys2Proof/Machine/Text.lean ====
section
/-! DEFINITION. The stringifier of `fp_format` (R42, R55; decision D19) and the reader of the same text, which the
assembler's `<value>` may be written in (R41). A debug view: it changes no state. The reader is the model's own
inverse of the printed form (log entry 6). -/

namespace Sys2Proof.Machine

/-- One lowercase hexadecimal digit. -/
def hexDigit (n : Nat) : Char :=
  ['0', '1', '2', '3', '4', '5', '6', '7', '8', '9', 'a', 'b', 'c', 'd', 'e', 'f'].getD n '0'

/-- `v` in `n` hexadecimal digits, zero-padded (R42). -/
def hexDigits : (n v : Nat) → List Char
  | 0, _ => []
  | n + 1, v => hexDigit (v / 16 ^ n % 16) :: hexDigits n v

/-- `to_string_F32`: `s_ee_mmmmmm` (R42, R55). -/
def toTextF32 (b : F32) : List Char :=
  let t := unpackF32 b
  hexDigits 1 t.s.toNat ++ '_' :: hexDigits 2 t.e.toNat ++ '_' :: hexDigits 6 t.m.toNat

/-- `to_string_F64`: `s_eee_mmmmmmmmmmmmm` (R42, R55). -/
def toTextF64 (b : F64) : List Char :=
  let t := unpackF64 b
  hexDigits 1 t.s.toNat ++ '_' :: hexDigits 3 t.e.toNat ++ '_' :: hexDigits 13 t.m.toNat

/-- `to_string_F80`: `s_eeee_i_ffffffffffffffff`, the integer bit in a field of its own (R42, R55). -/
def toTextF80 (b : F80) : List Char :=
  let t := unpackF80 b
  hexDigits 1 t.s.toNat ++ '_' :: hexDigits 4 t.e.toNat ++ '_' :: hexDigits 1 (intBit t.m).toNat
    ++ '_' :: hexDigits 16 (fraction t.m).toNat

/-- The value of a lowercase hexadecimal digit. -/
def hexValue (c : Char) : Option Nat :=
  ['0', '1', '2', '3', '4', '5', '6', '7', '8', '9', 'a', 'b', 'c', 'd', 'e', 'f'].idxOf? c

/-- Reads exactly `n` digits onto `acc`. -/
def readHex : (n acc : Nat) → List Char → Option (Nat × List Char)
  | 0, acc, cs => some (acc, cs)
  | _ + 1, _, [] => none
  | n + 1, acc, c :: cs => (hexValue c).bind fun d => readHex n (acc * 16 + d) cs

/-- Reads a field of `n` digits and `w` bits. -/
def readField (n w : Nat) (cs : List Char) : Option (BitVec w × List Char) :=
  (readHex n 0 cs).bind fun (v, rest) => if v < 2 ^ w then some (BitVec.ofNat w v, rest) else none

/-- Reads the underscore between two fields. -/
def readSep : List Char → Option (List Char)
  | '_' :: cs => some cs
  | _ => none

/-- Nothing may follow the last field. -/
def readEnd : List Char → Option Unit
  | [] => some ()
  | _ :: _ => none

/-- Reads the three fields of a narrow text form (R42). -/
def readNarrow (ew sw eDigits mDigits : Nat) (cs : List Char) : Option (Fields ew sw) := do
  let (s, cs) ← readField 1 1 cs
  let cs ← readSep cs
  let (e, cs) ← readField eDigits ew cs
  let cs ← readSep cs
  let (m, cs) ← readField mDigits sw cs
  readEnd cs
  some ⟨s, e, m⟩

/-- The F32 pattern a text stands for (R41, R42). -/
def parseTextF32 (cs : List Char) : Option F32 := (readNarrow 8 23 2 6 cs).map packF32

/-- The F64 pattern a text stands for (R41, R42). -/
def parseTextF64 (cs : List Char) : Option F64 := (readNarrow 11 52 3 13 cs).map packF64

/-- The F80 pattern a text stands for (R41, R42). -/
def parseTextF80 (cs : List Char) : Option F80 := do
  let (s, cs) ← readField 1 1 cs
  let cs ← readSep cs
  let (e, cs) ← readField 4 15 cs
  let cs ← readSep cs
  let (i, cs) ← readField 1 1 cs
  let cs ← readSep cs
  let (f, cs) ← readField 16 63 cs
  readEnd cs
  some (packF80 ⟨s, e, i ++ f⟩)

end Sys2Proof.Machine
end

