-- ==== Sys2Proof/WellFormed.lean ====
section
/-! DEFINITION. Well-formedness: of a command word (R38's four conditions), of a decoded command, and of an
assembler line (R37, R41). -/

namespace Sys2Proof

/-- The field `op = cmd[7:5]` (R34). -/
def opField (cmd : BitVec 8) : BitVec 3 := cmd.extractLsb' 5 3

/-- The field `fmt = cmd[4:3]` (R34). -/
def fmtField (cmd : BitVec 8) : BitVec 2 := cmd.extractLsb' 3 2

/-- The field `idx = cmd[2:0]` (R34). -/
def idxField (cmd : BitVec 8) : BitVec 3 := cmd.extractLsb' 0 3

/-- Operations that take a format: load, store_and_pop, add (R35). -/
def opUsesFmt (op : BitVec 3) : Bool := op == 0b000#3 || op == 0b010#3 || op == 0b011#3

/-- Operations that take a stack index: load_from_stack, add_stack, add_pop (R35). -/
def opUsesIdx (op : BitVec 3) : Bool := op == 0b001#3 || op == 0b100#3 || op == 0b101#3

/-- The first condition of R38: a reserved `op`. -/
def reservedOp (cmd : BitVec 8) : Bool := opField cmd == 0b110#3 || opField cmd == 0b111#3

/-- The second condition of R38: the reserved `fmt` on an operation that takes a format. -/
def reservedFmt (cmd : BitVec 8) : Bool := opUsesFmt (opField cmd) && fmtField cmd == 0b11#2

/-- The third condition of R38: an index on an operation that takes a format. -/
def strayIdx (cmd : BitVec 8) : Bool := opUsesFmt (opField cmd) && idxField cmd != 0b000#3

/-- The fourth condition of R38: a format on an operation that takes an index. -/
def strayFmt (cmd : BitVec 8) : Bool := opUsesIdx (opField cmd) && fmtField cmd != 0b00#2

/-- A command word is legal when none of the conditions of R38 holds. -/
def legalWord (cmd : BitVec 8) : Bool :=
  !(reservedOp cmd || reservedFmt cmd || strayIdx cmd || strayFmt cmd)

/-- Every decoded command is well formed: its operands have the widths of their fields, so an index outside
`[0,7]` cannot be written (R37, R133). The checks that can fail are those on the word and on the assembler line. -/
def Instr.wellFormed : Instr → Bool
  | .loadF32 _ => true
  | .loadF64 _ => true
  | .loadF80 _ => true
  | .loadFromStack _ => true
  | .storeAndPopF32 => true
  | .storeAndPopF64 => true
  | .storeAndPopF80 => true
  | .addF32 _ => true
  | .addF64 _ => true
  | .addF80 _ => true
  | .addStack _ => true
  | .addPop _ => true

/-- An assembler index is absent or in `0..7` (R37, R41). -/
def asmIndexOk : Option Nat → Bool
  | none => true
  | some i => i < 8

/-- A value of a `w`-bit format: a pattern that fits, or a text the format's reader accepts (R41, R42).
That a number of `2^w` or more is refused is the model's (log entry 6). -/
def asmValueOk (w : Nat) (parse : List Char → Option (BitVec w)) : AsmValue → Bool
  | .pattern n => n < 2 ^ w
  | .text cs => (parse cs).isSome

/-- Well-formed assembler lines (R41). -/
def Asm.wellFormed : Asm → Bool
  | .loadF32 v => asmValueOk 32 Machine.parseTextF32 v
  | .loadF64 v => asmValueOk 64 Machine.parseTextF64 v
  | .loadF80 v => asmValueOk 80 Machine.parseTextF80 v
  | .loadFromStack i => asmIndexOk i
  | .storeAndPopF32 => true
  | .storeAndPopF64 => true
  | .storeAndPopF80 => true
  | .addF32 v => asmValueOk 32 Machine.parseTextF32 v
  | .addF64 v => asmValueOk 64 Machine.parseTextF64 v
  | .addF80 v => asmValueOk 80 Machine.parseTextF80 v
  | .addStack i => asmIndexOk i
  | .addPop i => asmIndexOk i

end Sys2Proof
end

