-- ==== Sys2Proof/Decode.lean ====
section
/-! DEFINITION. The decoder (the match/mask table of R39), the encoder (the fields of R34 to R36), the assembler
(R37, R41), and the host's numbering of an instruction's bits. -/

namespace Sys2Proof

/-- `DataIn(n)`: the low `n` bits of the data input; the bits above are ignored (R8, R21). -/
def dataIn (n : Nat) (din : F80) : BitVec n := din.setWidth n

/-- One row of the table of R39: a word `w` selects the row when `w & mask = pat`; `build` makes the command from
the index field and the data input. -/
structure OpcodeRow where
  mnemonic : String
  pat : BitVec 8
  mask : BitVec 8
  build : StackIndex → F80 → Instr

/-- The complete list of legal command words (R39). -/
def opcodeTable : List OpcodeRow :=
  [ ⟨"load_F32", 0x00, 0xFF, fun _ d => .loadF32 (dataIn 32 d)⟩,
    ⟨"load_F64", 0x08, 0xFF, fun _ d => .loadF64 (dataIn 64 d)⟩,
    ⟨"load_F80", 0x10, 0xFF, fun _ d => .loadF80 (dataIn 80 d)⟩,
    ⟨"load_from_stack", 0x20, 0xF8, fun i _ => .loadFromStack i⟩,
    ⟨"store_and_pop_F32", 0x40, 0xFF, fun _ _ => .storeAndPopF32⟩,
    ⟨"store_and_pop_F64", 0x48, 0xFF, fun _ _ => .storeAndPopF64⟩,
    ⟨"store_and_pop_F80", 0x50, 0xFF, fun _ _ => .storeAndPopF80⟩,
    ⟨"add_F32", 0x60, 0xFF, fun _ d => .addF32 (dataIn 32 d)⟩,
    ⟨"add_F64", 0x68, 0xFF, fun _ d => .addF64 (dataIn 64 d)⟩,
    ⟨"add_F80", 0x70, 0xFF, fun _ d => .addF80 (dataIn 80 d)⟩,
    ⟨"add_stack", 0x80, 0xF8, fun i _ => .addStack i⟩,
    ⟨"add_pop", 0xA0, 0xF8, fun i _ => .addPop i⟩ ]

/-- The row a command word selects, if any (R39). -/
def selectRow (cmd : BitVec 8) : Option OpcodeRow :=
  opcodeTable.find? fun r => (cmd &&& r.mask) == r.pat

/-- Decoding a presented command; `none` is an illegal word (R38, R39). -/
def decode (c : Command) : Option Instr :=
  (selectRow c.cmd).map fun r => r.build (idxField c.cmd) c.din

/-- A command word from its three fields (R34). -/
def commandWord (op : BitVec 3) (fmt : BitVec 2) (idx : BitVec 3) : BitVec 8 := op ++ fmt ++ idx

/-- The command the host presents for an instruction: `op` by R35, `fmt` by R36, `idx` by R37, the data operand
right-justified on `din` (R21). The bits of `din` the command ignores are zero here (log entry 5). -/
def encode : Instr → Command
  | .loadF32 v => ⟨commandWord 0b000 0b00 0, v.setWidth 80⟩
  | .loadF64 v => ⟨commandWord 0b000 0b01 0, v.setWidth 80⟩
  | .loadF80 v => ⟨commandWord 0b000 0b10 0, v⟩
  | .loadFromStack i => ⟨commandWord 0b001 0b00 i, 0⟩
  | .storeAndPopF32 => ⟨commandWord 0b010 0b00 0, 0⟩
  | .storeAndPopF64 => ⟨commandWord 0b010 0b01 0, 0⟩
  | .storeAndPopF80 => ⟨commandWord 0b010 0b10 0, 0⟩
  | .addF32 v => ⟨commandWord 0b011 0b00 0, v.setWidth 80⟩
  | .addF64 v => ⟨commandWord 0b011 0b01 0, v.setWidth 80⟩
  | .addF80 v => ⟨commandWord 0b011 0b10 0, v⟩
  | .addStack i => ⟨commandWord 0b100 0b00 i, 0⟩
  | .addPop i => ⟨commandWord 0b101 0b00 i, 0⟩

/-- The mnemonic of a command (R41; the table's spelling). -/
def Instr.mnemonic : Instr → String
  | .loadF32 _ => "load_F32"
  | .loadF64 _ => "load_F64"
  | .loadF80 _ => "load_F80"
  | .loadFromStack _ => "load_from_stack"
  | .storeAndPopF32 => "store_and_pop_F32"
  | .storeAndPopF64 => "store_and_pop_F64"
  | .storeAndPopF80 => "store_and_pop_F80"
  | .addF32 _ => "add_F32"
  | .addF64 _ => "add_F64"
  | .addF80 _ => "add_F80"
  | .addStack _ => "add_stack"
  | .addPop _ => "add_pop"

/-- How many low bits of `din` a command reads (R24; the table's `din_bits`). -/
def dinBits : Instr → Nat
  | .loadF32 _ => 32
  | .loadF64 _ => 64
  | .loadF80 _ => 80
  | .loadFromStack _ => 0
  | .storeAndPopF32 => 0
  | .storeAndPopF64 => 0
  | .storeAndPopF80 => 0
  | .addF32 _ => 32
  | .addF64 _ => 64
  | .addF80 _ => 80
  | .addStack _ => 0
  | .addPop _ => 0

/-- The index an assembler line names: the form with no operand means `i = 1` (R37). -/
def asmIndex : Option Nat → Option StackIndex
  | none => some 1
  | some i => if i < 8 then some (BitVec.ofNat 3 i) else none

/-- The pattern an assembler line places on `din` (R41); none for a number of `2^w` or more (log entry 6). -/
def asmValue (w : Nat) (parse : List Char → Option (BitVec w)) : AsmValue → Option (BitVec w)
  | .pattern n => if n < 2 ^ w then some (BitVec.ofNat w n) else none
  | .text cs => parse cs

/-- The command an assembler line stands for; `none` where the line is not well formed (R41). -/
def assemble : Asm → Option Instr
  | .loadF32 v => (asmValue 32 Machine.parseTextF32 v).map .loadF32
  | .loadF64 v => (asmValue 64 Machine.parseTextF64 v).map .loadF64
  | .loadF80 v => (asmValue 80 Machine.parseTextF80 v).map .loadF80
  | .loadFromStack i => (asmIndex i).map .loadFromStack
  | .storeAndPopF32 => some .storeAndPopF32
  | .storeAndPopF64 => some .storeAndPopF64
  | .storeAndPopF80 => some .storeAndPopF80
  | .addF32 v => (asmValue 32 Machine.parseTextF32 v).map .addF32
  | .addF64 v => (asmValue 64 Machine.parseTextF64 v).map .addF64
  | .addF80 v => (asmValue 80 Machine.parseTextF80 v).map .addF80
  | .addStack i => (asmIndex i).map .addStack
  | .addPop i => (asmIndex i).map .addPop

/-- The command whose bits are `w`: the command word is bits 7..0, the data input the bits above it, and every bit
from `nbits` on is zero (log entry 5). -/
def tableCommand (nbits w : Nat) : Command :=
  let v := w % 2 ^ nbits
  ⟨BitVec.ofNat 8 v, BitVec.ofNat 80 (v / 2 ^ 8)⟩

/-- What the decoder reads from an instruction whose bits are `w`, numbered as the opcode table numbers them. -/
def decodeTableWord (nbits w : Nat) : Option Instr := decode (tableCommand nbits w)

end Sys2Proof
end

