-- ==== Sys2Proof/Machine/State.lean ====
section
/-! DEFINITION. The state of one instance of the core: the register stack (R10, R11), the output ports (R21, R151),
and what the host has still to present (R153, R156). -/

namespace Sys2Proof.Machine

/-- What the host drives on the input ports at one hand-over (R150, R153, R156): the reset input, `cmd_valid`, and
the command with its data. -/
structure PortInput where
  rst : Bool
  cmdValid : Bool
  command : Command
  deriving DecidableEq, Repr

/-- The machine. R10: the whole architectural state is `slots` and `top`; the rest is its ports and what the host has
still to present on them. -/
structure State where
  /-- `slot[0]` .. `slot[7]`, any 80-bit pattern each (R10). -/
  slots : Vector F80 Config.stackDepth
  /-- `top` (R11). -/
  top : StackIndex
  /-- `dout[79:0]` (R21). -/
  dout : F80
  /-- `dout_valid` (R21). -/
  doutValid : Bool
  /-- The `fault` output (R141, R151). -/
  fault : Bool
  /-- What the host still presents on the input ports, in order (R26, R153, R156; log entry 2). -/
  inputs : List PortInput
  deriving DecidableEq, Repr

/-- Why the machine stops with a fault. -/
inductive Fault where
  /-- `fault(illegal_command)` (R38, R141): raised by `step` for a command word that is not in the table of R39.
  Safe: the spec has a model end the good run here (D7), although the hardware would take a further command (R145);
  `hardwareStep` of Machine/Run.lean goes on. Log entry 7. -/
  | illegalCommand
  deriving DecidableEq, Repr

/-- Why the model gives no meaning. -/
inductive Refusal where
  /-- Raised by an arm of `exec` for an instruction that has no meaning yet; no arm is left. Safe. -/
  | notModelled (mnemonic : String)
  deriving DecidableEq, Repr

/-- The reset state, complete (R19, R151): every slot `+0`, `top` 0, the outputs 0. Nothing is presented yet (R151:
the core waits for the first command). -/
def State.reset : State where
  slots := Vector.replicate Config.stackDepth 0
  top := 0
  dout := 0
  doutValid := false
  fault := false
  inputs := []

end Sys2Proof.Machine
end

