-- ==== Sys2Proof/Machine/Ops.lean ====
section
/-! DEFINITION. The operations every command is built from: the slots and `top` (R10 to R12), `push` and `pop`
(R13), the reset event (R150) and `cmd_ready` (R153). -/

namespace Sys2Proof.Machine

/-- The pattern in physical slot `p` (R8, R10). -/
def State.readSlot (s : State) (p : StackIndex) : F80 := s.slots[p.toNat]'p.isLt

/-- `slot[p] <- v` (R8). -/
def State.writeSlot (s : State) (p : StackIndex) (v : F80) : State :=
  { s with slots := s.slots.set p.toNat v p.isLt }

/-- `top <- v` (R8). -/
def State.setTop (s : State) (v : StackIndex) : State := { s with top := v }

/-- What the core drives on its output ports when a command completes (R21, R141). -/
def State.driveOutputs (s : State) (dout : F80) (valid fault : Bool) : State :=
  { s with dout := dout, doutValid := valid, fault := fault }

/-- The inputs the host has still to present. -/
def State.setInputs (s : State) (inputs : List PortInput) : State := { s with inputs := inputs }

/-- The physical slot `st(i)` names: `(top + i) mod 8` (R12). -/
def State.stSlot (s : State) (i : StackIndex) : StackIndex := s.top + i

/-- `st(i)` as a read (R8, R12). -/
def State.st (s : State) (i : StackIndex) : F80 := s.readSlot (s.stSlot i)

/-- `st(i) <- v` (R8, R12). -/
def State.setSt (s : State) (i : StackIndex) (v : F80) : State := s.writeSlot (s.stSlot i) v

/-- `push(v)` (R13): decrement `top` modulo 8, then write the new `st(0)`. -/
def State.push (s : State) (v : F80) : State := (s.setTop (s.top - 1)).setSt 0 v

/-- `pop()` (R13): the old `st(0)`, and `top` incremented modulo 8; the slot keeps its value. -/
def State.pop (s : State) : F80 × State := (s.st 0, s.setTop (s.top + 1))

/-- The reset event (R150): the reset state of R151, whatever the core held. What the host has still to present is
not the core's to clear (log entry 2). -/
def State.resetCore (s : State) : State :=
  { State.reset with inputs := s.inputs }

/-- `cmd_ready` (R153): high whenever a command can be taken. Every state of the model lies between two indivisible
steps, so it is high in all of them (log entry 4). -/
def State.cmdReady (_s : State) : Bool := true

end Sys2Proof.Machine
end

