-- ==== Sys2Proof/Machine/Flags.lean ====
section
/-! DEFINITION. The core has no flags (R15 c, R133). What a command reports stands on the output ports alone: the
result with its qualifier (R21) and the fault output (R141). -/

namespace Sys2Proof.Machine

/-- `DataOut(n, v)`: `v` on the low bits, zero above, `dout_valid = 1` (R8, R21). -/
def State.dataOut {n : Nat} (s : State) (v : BitVec n) : State := s.driveOutputs (v.setWidth 80) true false

/-- A command that returns no value drives `dout = 0` and `dout_valid = 0` (R21). -/
def State.noDataOut (s : State) : State := s.driveOutputs 0 false false

/-- `fault(illegal_command)` on the ports (R141): the fault output asserted, no data, neither `top` nor a slot
changed. -/
def State.raiseFault (s : State) : State := s.driveOutputs 0 false true

end Sys2Proof.Machine
end

