-- ==== Sys2Proof/Machine/Add80.lean ====
section
/-! DEFINITION. `fp_add80`, the significand-aligned adder and subtractor (43_adder.md, R100 to R111). It truncates
and clamps as the spec says; it does not round, and it treats `e = 0` as any other exponent (R109). -/

namespace Sys2Proof.Machine

/-- The number of zero bits above the most significant 1 of `x`, for `0 < x < 2^64` (R7). -/
def clz64 (x : Nat) : Nat := 63 - x.log2

/-- The operands in order (R103): result sign, larger exponent and its significand, exponent difference and the
other significand. -/
structure OrderedOperands where
  sign : BitVec 1
  exp : Nat
  big : Nat
  diff : Nat
  small : Nat
  deriving DecidableEq, Repr

/-- `swap`: `b` is the bigger operand (R103; equal exponents by decision D12). -/
def swapOperands (a b : Fields 15 64) : Bool :=
  a.e.toNat < b.e.toNat || (a.e.toNat == b.e.toNat && a.m.toNat < b.m.toNat)

/-- Ordering and result sign (R103; the sign on a swap by decision D13). -/
def orderOperands (a b : Fields 15 64) (sub : BitVec 1) : OrderedOperands :=
  if swapOperands a b then ⟨b.s ^^^ sub, b.e.toNat, b.m.toNat, b.e.toNat - a.e.toNat, a.m.toNat⟩
  else ⟨a.s, a.e.toNat, a.m.toNat, a.e.toNat - b.e.toNat, b.m.toNat⟩

/-- Alignment (R104): a truncating right shift, the distance clamped to 64. -/
def OrderedOperands.aligned (o : OrderedOperands) : Nat := o.small >>> min o.diff 64

/-- Effective addition (R105), with no result where the exponent would reach `0x7FFF` (R110 ii). -/
def addMagnitudes (sign : BitVec 1) (exp big aligned : Nat) : Option (Fields 15 64) :=
  let sum := big + aligned
  let (exp', sum') := if 2 ^ 64 ≤ sum then (exp + 1, (sum >>> 1) ||| 2 ^ 63) else (exp, sum)
  if exp' = 0x7FFF then none else some ⟨sign, BitVec.ofNat 15 exp', BitVec.ofNat 64 sum'⟩

/-- The difference `trunc_64(Mbig - aligned)` (R106; modulo `2^64` by decision D12). -/
def wrappedDifference (big aligned : Nat) : Nat := (2 ^ 64 + big - aligned) % 2 ^ 64

/-- Effective subtraction and normalisation (R106, R107): the shift is clamped so that the exponent stays at or
above 0, which can leave a pseudo-denormal (R108). -/
def subMagnitudes (sign : BitVec 1) (exp big aligned : Nat) : Fields 15 64 :=
  let d := wrappedDifference big aligned
  if d = 0 then zeroFields 15 64 sign
  else
    let n := min (clz64 d) exp
    ⟨sign, BitVec.ofNat 15 (exp - n), BitVec.ofNat 64 (d <<< n)⟩

/-- `esub = sub ^ sa ^ sb` (R102). -/
def effectiveSub (a b : Fields 15 64) (sub : BitVec 1) : BitVec 1 := sub ^^^ a.s ^^^ b.s

/-- The adder on fields (R100). `none` is `unspecified(80)`: the source defines no result (R110). -/
def addFields (a b : Fields 15 64) (sub : BitVec 1) : Option (Fields 15 64) :=
  if a.e = 0x7FFF ∨ b.e = 0x7FFF then none
  else
    let o := orderOperands a b sub
    if effectiveSub a b sub = 0 then addMagnitudes o.sign o.exp o.big o.aligned
    else some (subMagnitudes o.sign o.exp o.big o.aligned)

/-- `add80(a, b, sub)` (R100); every command drives `sub = 0` (R101). -/
def add80 (a b : F80) (sub : BitVec 1) : Option F80 :=
  (addFields (unpackF80 a) (unpackF80 b) sub).map packF80

end Sys2Proof.Machine
end

