-- ==== Sys2Proof/Machine/Expand.lean ====
section
/-! DEFINITION. `fp_expand`, the widening converter (41_expand.md, R65 to R71). One algorithm over the narrow
format's exponent width `ew` and significand width `sw`. -/

namespace Sys2Proof.Machine

/-- The normalising loop of R69: shift `m` left, counting `e` down, until bit `sw` of `m` is set. It runs at most
`sw` times (R156), which is the fuel it is given. -/
def normaliseLoop (sw : Nat) : (fuel m : Nat) → (e : Int) → Nat × Int
  | 0, m, e => (m, e)
  | fuel + 1, m, e => if m.testBit sw then (m, e) else normaliseLoop sw fuel (m * 2) (e - 1)

/-- `m << shift` in 64 bits: the narrow fraction left-aligned under the integer bit (R67, R70). -/
def alignFraction {sw : Nat} (m : BitVec sw) : BitVec 64 := m.setWidth 64 <<< narrowShift sw

/-- Denormal input (R69): normalised into F80's wider exponent range; the exponent is signed throughout. -/
def expandDenormal {ew sw : Nat} (t : Fields ew sw) : Fields 15 64 :=
  let (m, e) := normaliseLoop sw sw t.m.toNat 0
  ⟨t.s, BitVec.ofInt 15 (e + 1 - bias ew + 16383), BitVec.ofNat 64 (m <<< narrowShift sw)⟩

/-- Case selection (R65) over R66 (infinity), R67 (NaN), R68 (zero), R69 (denormal) and R70 (normal). -/
def expandFields {ew sw : Nat} (t : Fields ew sw) : Fields 15 64 :=
  if t.e.toNat = expMax ew then
    if t.m = 0 then infF80 t.s
    else ⟨t.s, 0x7FFF, alignFraction t.m ||| 0xC000000000000000⟩
  else if t.e = 0 then
    if t.m = 0 then zeroFields 15 64 t.s else expandDenormal t
  else
    ⟨t.s, BitVec.ofInt 15 ((t.e.toNat : Int) - bias ew + 16383), 0x8000000000000000 ||| alignFraction t.m⟩

/-- `expand_F32` (R65 to R71). -/
def expandF32 (b : F32) : F80 := packF80 (expandFields (unpackF32 b))

/-- `expand_F64` (R65 to R71). -/
def expandF64 (b : F64) : F80 := packF80 (expandFields (unpackF64 b))

end Sys2Proof.Machine
end

