-- ==== Sys2Proof/Machine/Operands.lean ====
section
/-! DEFINITION. The operand forms: a narrow data operand is widened, an F80 data operand is used as it is, a stack
operand is read by its relative index; and the adder as the commands use it, with `sub = 0` (R101). -/

namespace Sys2Proof.Machine

/-- A 32-bit data operand (R120, R127). -/
def operandF32 (v : F32) : F80 := expandF32 v

/-- A 64-bit data operand (R121, R128). -/
def operandF64 (v : F64) : F80 := expandF64 v

/-- An 80-bit data operand: no conversion and no check (R122, R129). -/
def operandF80 (v : F80) : F80 := v

/-- The block `add80(a, b, sub)` as it drives its output, on all operands: the result, or a free value where the
source defines none (R110; decision D14; log entry 1). It depends on `a`, `b` and `sub` alone (R111). -/
def adderResult (a b : F80) (sub : BitVec 1) : F80 := (add80 a b sub).getD (Config.freeValue a b sub)

/-- `st(dst) <- add80(st(dst), b, 0)` (R127 to R132). -/
def State.addInto (s : State) (dst : StackIndex) (b : F80) : State := s.setSt dst (adderResult (s.st dst) b 0)

end Sys2Proof.Machine
end

