-- ==== Sys2Proof/Machine/Add.lean ====
section
/-! DEFINITION. The add commands (44_stack_ops.md section 3, R127 to R132). -/

namespace Sys2Proof.Machine

/-- `add_F32` (R127): `st(0) <- add80(st(0), expand_F32(DataIn(32)), 0)`. -/
def execAddF32 (v : F32) (s : State) : Host.Outcome State Fault Refusal :=
  .next (s.addInto 0 (operandF32 v)).noDataOut

/-- `add_F64` (R128): `st(0) <- add80(st(0), expand_F64(DataIn(64)), 0)`. -/
def execAddF64 (v : F64) (s : State) : Host.Outcome State Fault Refusal :=
  .next (s.addInto 0 (operandF64 v)).noDataOut

/-- `add_F80` (R129): `st(0) <- add80(st(0), DataIn(80), 0)`. -/
def execAddF80 (v : F80) (s : State) : Host.Outcome State Fault Refusal :=
  .next (s.addInto 0 (operandF80 v)).noDataOut

/-- `add_stack i` (R130): `st(0) <- add80(st(0), st(i), 0)`. -/
def execAddStack (i : StackIndex) (s : State) : Host.Outcome State Fault Refusal :=
  .next (s.addInto 0 (s.st i)).noDataOut

/-- `add_pop i` (R131): `st(i) <- add80(st(i), st(0), 0)`, the index taken before the pop; the popped value is
discarded. -/
def execAddPop (i : StackIndex) (s : State) : Host.Outcome State Fault Refusal :=
  .next (s.addInto i (s.st 0)).pop.2.noDataOut

end Sys2Proof.Machine
end

