-- ==== Sys2Proof/Machine/Load.lean ====
section
/-! DEFINITION. The load commands (44_stack_ops.md section 1, R120 to R123). -/

namespace Sys2Proof.Machine

/-- `load_F32` (R120): `push(expand_F32(DataIn(32)))`. -/
def execLoadF32 (v : F32) (s : State) : Host.Outcome State Fault Refusal :=
  .next (s.push (operandF32 v)).noDataOut

/-- `load_F64` (R121): `push(expand_F64(DataIn(64)))`. -/
def execLoadF64 (v : F64) (s : State) : Host.Outcome State Fault Refusal :=
  .next (s.push (operandF64 v)).noDataOut

/-- `load_F80` (R122): `push(DataIn(80))`, bit for bit. -/
def execLoadF80 (v : F80) (s : State) : Host.Outcome State Fault Refusal :=
  .next (s.push (operandF80 v)).noDataOut

/-- `load_from_stack i` (R123): `st(i)` is read against the `top` in force before the push. -/
def execLoadFromStack (i : StackIndex) (s : State) : Host.Outcome State Fault Refusal :=
  let t := s.st i
  .next (s.push t).noDataOut

end Sys2Proof.Machine
end

