-- ==== Sys2Proof/Machine/Compress.lean ====
section
/-! DEFINITION. `fp_compress`, the narrowing converter (42_compress.md, R80 to R91). One algorithm over the target's
exponent width `ew` and significand width `sw`. -/

namespace Sys2Proof.Machine

/-- The rebased exponent `e1 = e - 16383 + bias_T`, signed (R83). -/
def rebase (ew : Nat) (e : BitVec 15) : Int := (e.toNat : Int) - 16383 + bias ew

/-- Round to nearest, ties to even, of the low `shift` bits of `m` (R88): the whole discarded field is compared. -/
def roundNearestEven (m shift : Nat) : Nat :=
  let retained := m >>> shift
  let guardBits := m % 2 ^ shift
  let half := 2 ^ (shift - 1)
  if half < guardBits ∨ (guardBits = half ∧ retained % 2 = 1) then retained + 1 else retained

/-- Rounding, then the carry out of the significand (R89): the packed `(s, exp_max, 0)` is the infinity. -/
def roundAndPack (ew sw : Nat) (s : BitVec 1) (m shift eOut : Nat) : Fields ew sw :=
  let retained := roundNearestEven m shift
  if sigMax sw < retained then ⟨s, BitVec.ofNat ew (eOut + 1), 0⟩
  else ⟨s, BitVec.ofNat ew eOut, BitVec.ofNat sw retained⟩

/-- The significand of the denormal tail: the integer bit set whatever the input held (R86, R91). -/
def withIntBit (m : BitVec 64) : BitVec 64 := m ||| 0x8000000000000000

/-- The significand of the normal tail: the integer bit cleared (R87). -/
def withoutIntBit (m : BitVec 64) : BitVec 64 := m &&& 0x7FFFFFFFFFFFFFFF

/-- The payload of a NaN: integer bit dropped, quiet bit forced, truncated to `sw` bits (R82). -/
def nanPayload (sw : Nat) (m : BitVec 64) : BitVec sw :=
  ((withoutIntBit m ||| 0x4000000000000000) >>> narrowShift sw).setWidth sw

/-- The order of the steps (R80): infinity (R81), NaN (R82), overflow (R84), flush to zero (R85), denormal tail
(R86), normal tail (R87). -/
def compressFields (ew sw : Nat) (t : Fields 15 64) : Fields ew sw :=
  if t.e = 0x7FFF then
    if fraction t.m = 0 then infNarrow ew sw t.s
    else ⟨t.s, BitVec.ofNat ew (expMax ew), nanPayload sw t.m⟩
  else
    let e1 := rebase ew t.e
    if (expMax ew : Int) ≤ e1 then infNarrow ew sw t.s
    else if e1 ≤ 0 then
      if e1 < -(sw : Int) then zeroFields ew sw t.s
      else roundAndPack ew sw t.s (withIntBit t.m).toNat (narrowShift sw + (-e1 + 1).toNat) 0
    else roundAndPack ew sw t.s (withoutIntBit t.m).toNat (narrowShift sw) e1.toNat

/-- `compress_F32` (R80 to R91). -/
def compressF32 (x : F80) : F32 := packF32 (compressFields 8 23 (unpackF80 x))

/-- `compress_F64` (R80 to R91). -/
def compressF64 (x : F80) : F64 := packF64 (compressFields 11 52 (unpackF80 x))

end Sys2Proof.Machine
end

