-- ==== Sys2Proof/Machine/Store.lean ====
section
/-! DEFINITION. The store-and-pop commands (44_stack_ops.md section 2, R124 to R126): the pop happens whatever the
conversion gives. -/

namespace Sys2Proof.Machine

/-- `store_and_pop_F32` (R126). -/
def execStoreAndPopF32 (s : State) : Host.Outcome State Fault Refusal :=
  let (v, s1) := s.pop
  .next (s1.dataOut (compressF32 v))

/-- `store_and_pop_F64` (R125). -/
def execStoreAndPopF64 (s : State) : Host.Outcome State Fault Refusal :=
  let (v, s1) := s.pop
  .next (s1.dataOut (compressF64 v))

/-- `store_and_pop_F80` (R124): the value leaves unchanged. -/
def execStoreAndPopF80 (s : State) : Host.Outcome State Fault Refusal :=
  let (v, s1) := s.pop
  .next (s1.dataOut v)

end Sys2Proof.Machine
end

