-- ==== Sys2Proof/Machine/Dispatch.lean ====
section
/-! DEFINITION. One arm per command: the call of its meaning. -/

namespace Sys2Proof.Machine

def exec (i : Instr) (s : State) : Host.Outcome State Fault Refusal :=
  match i with
  | .loadF32 v => Sys2Proof.Machine.execLoadF32 v s
  | .loadF64 v => Sys2Proof.Machine.execLoadF64 v s
  | .loadF80 v => Sys2Proof.Machine.execLoadF80 v s
  | .loadFromStack n => Sys2Proof.Machine.execLoadFromStack n s
  | .storeAndPopF32 => Sys2Proof.Machine.execStoreAndPopF32 s
  | .storeAndPopF64 => Sys2Proof.Machine.execStoreAndPopF64 s
  | .storeAndPopF80 => Sys2Proof.Machine.execStoreAndPopF80 s
  | .addF32 v => Sys2Proof.Machine.execAddF32 v s
  | .addF64 v => Sys2Proof.Machine.execAddF64 v s
  | .addF80 v => Sys2Proof.Machine.execAddF80 v s
  | .addStack n => Sys2Proof.Machine.execAddStack n s
  | .addPop n => Sys2Proof.Machine.execAddPop n s

end Sys2Proof.Machine
end

