-- ==== Sys2Proof/Machine/HandOver.lean ====
section
/-! DEFINITION. The hand-over of one input (R150, R153) and the placing of a command on the input ports. `step` only
calls these. -/

namespace Sys2Proof.Machine

/-- One hand-over (R150, R153), on a state from which the input has been taken off the list: reset wins whatever
command is presented; a command is taken when `cmd_valid` and `cmd_ready` are high, and its word is checked before
anything else (R144); with no command the core waits, its outputs as they were (log entry 3). -/
def handOver (p : PortInput) (s : State) : Host.Outcome State Fault Refusal :=
  if p.rst then .next s.resetCore
  else if p.cmdValid && s.cmdReady then
    match decode p.command with
    | some i => exec i s
    | none => .fault .illegalCommand
  else .next s

/-- What the host drives to have a command done: no reset, `cmd_valid` high (R153). -/
def PortInput.ofCommand (c : Command) : PortInput := ⟨false, true, c⟩

/-- What the host drives to assert reset while presenting `c` (R150). -/
def PortInput.resetWith (valid : Bool) (c : Command) : PortInput := ⟨true, valid, c⟩

/-- The host's commands, in the order it presents them, before whatever else it presents (R26, R156). -/
def State.present (s : State) (cs : List Command) : State :=
  s.setInputs (cs.map PortInput.ofCommand ++ s.inputs)

end Sys2Proof.Machine
end

