-- ==== Sys2Proof/Machine/Step.lean ====
section
/-! DEFINITION. One step: the next hand-over of the host. The core has no program counter and fetches nothing (R15 b,
R28): the order in which the host presents commands is the program order (decision D2). -/

namespace Sys2Proof.Machine

/-- One step takes the next input the host presents; with none left the core waits for a command (R151). -/
def step (s : State) : Host.Outcome State Fault Refusal :=
  match s.inputs with
  | [] => .next s
  | p :: rest => handOver p (s.setInputs rest)

/-- `s` with the command whose bits are `w` as the next one the host presents (log entry 5). -/
def State.withFetchWord (s : State) (nbits w : Nat) : State := s.present [tableCommand nbits w]

end Sys2Proof.Machine
end

