-- ==== Sys2Proof/Machine/Value.lean ====
section
/-! DEFINITION. The number a pattern stands for (R54), for checking results only: no block of the core computes it.
A pattern with the maximum exponent stands for no number (log entry 8). -/

namespace Sys2Proof.Machine

/-- `(-1)^s` (R54). -/
def signFactor (s : BitVec 1) : ℚ := if s = 1 then -1 else 1

/-- The value of narrow fields (R54): the implicit leading 1 for a normal, the scale `2^(1 - bias)` for `e = 0`. -/
def narrowValue {ew sw : Nat} (t : Fields ew sw) : Option ℚ :=
  if t.e.toNat = expMax ew then none
  else if t.e = 0 then
    some (signFactor t.s * (2 : ℚ) ^ ((1 : ℤ) - bias ew) * ((t.m.toNat : ℚ) / 2 ^ sw))
  else
    some (signFactor t.s * (2 : ℚ) ^ ((t.e.toNat : ℤ) - bias ew) * (1 + (t.m.toNat : ℚ) / 2 ^ sw))

/-- The value of an F32 pattern (R54). -/
def valueF32 (b : F32) : Option ℚ := narrowValue (unpackF32 b)

/-- The value of an F64 pattern (R54). -/
def valueF64 (b : F64) : Option ℚ := narrowValue (unpackF64 b)

/-- The value of an F80 pattern (R54): the integer bit is part of `m`; `e = 0` has the scale of `e = 1`. -/
def valueF80 (b : F80) : Option ℚ :=
  let t := unpackF80 b
  if t.e = 0x7FFF then none
  else
    some (signFactor t.s * (2 : ℚ) ^ ((if t.e = 0 then 1 else (t.e.toNat : ℤ)) - 16383)
      * ((t.m.toNat : ℚ) / 2 ^ 63))

end Sys2Proof.Machine
end

