-- ==== Sys2Proof/Machine/Run.lean ====
section
/-! DEFINITION. What the hardware does with a list of inputs, faults included (R145: after a fault it takes the next
command), and what a run yields (R156). -/

namespace Sys2Proof.Machine

/-- What the host can observe after a hand-over (R156). -/
structure PortOutput where
  doutValid : Bool
  dout : F80
  fault : Bool
  cmdReady : Bool
  deriving DecidableEq, Repr

/-- The output ports in a state (R21, R141, R153). -/
def State.outputs (s : State) : PortOutput := ⟨s.doutValid, s.dout, s.fault, s.cmdReady⟩

/-- The state the hardware is in after one hand-over: where `handOver` stops with the fault, the fault is on the
outputs and nothing else changed (R141, R145). No hand-over is refused. -/
def hardwareStep (p : PortInput) (s : State) : State :=
  match handOver p s with
  | .next t => t
  | .fault _ => s.raiseFault
  | .refused _ => s

/-- A run over the inputs the host presents: the outputs after each, and the final state (R156). -/
def hardwareRun : List PortInput → State → List PortOutput × State
  | [], s => ([], s)
  | p :: ps, s =>
    let t := hardwareStep p s
    let (os, u) := hardwareRun ps t
    (t.outputs :: os, u)

/-- A run over a list of commands (R156). -/
def commandRun (cs : List Command) (s : State) : List PortOutput × State :=
  hardwareRun (cs.map PortInput.ofCommand) s

/-- `k` steps of the model, stopping at the first fault. -/
def stepRun : Nat → State → Host.Outcome State Fault Refusal
  | 0, s => .next s
  | k + 1, s =>
    match step s with
    | .next t => stepRun k t
    | .fault r => .fault r
    | .refused r => .refused r

/-- The same machine with all slot numbers and `top` rotated by `k` (R152). -/
def State.rotate (s : State) (k : StackIndex) : State :=
  { s with slots := Vector.ofFn fun p => s.readSlot (BitVec.ofFin p - k), top := s.top + k }

end Sys2Proof.Machine
end

