-- ==== Sys2Proof/Safety.lean ====
section
/-! DEFINITION. What counts as a safe run, in the terms the statements use (R141, R156), and the invariant of the
output ports (R21, R141). -/

namespace Sys2Proof.Machine

/-- A run in which no command faulted is a good run (R141, R156). -/
def GoodRun (cs : List Command) (s : State) : Prop :=
  ∀ o ∈ (commandRun cs s).1, o.fault = false

/-- The output ports agree with one another (R21, R141): without `dout_valid` there is no data, and a fault comes
with no data. The rules speak of a command's completion; between commands the outputs stay (log entry 3). -/
def State.OutputsConsistent (s : State) : Prop :=
  (s.doutValid = false → s.dout = 0) ∧ (s.fault = true → s.doutValid = false)

/-- `top` and every slot are as before. -/
def State.SameStack (s t : State) : Prop :=
  t.top = s.top ∧ ∀ p, t.readSlot p = s.readSlot p

/-- Every slot but slot `p` is as before. -/
def State.SameSlotsBut (s t : State) (p : StackIndex) : Prop :=
  ∀ q, q ≠ p → t.readSlot q = s.readSlot q

/-- A completed command that returns no value (R21): `dout = 0`, `dout_valid = 0`, and no fault. -/
def State.DrivesNothing (t : State) : Prop :=
  t.dout = 0 ∧ t.doutValid = false ∧ t.fault = false

/-- A completed command that returns the value `v` (R21): zero above its width, `dout_valid = 1`, and no fault. -/
def State.DrivesData {n : Nat} (t : State) (v : BitVec n) : Prop :=
  t.dout = v.setWidth 80 ∧ t.doutValid = true ∧ t.fault = false

/-- What a load does to the machine (R13, R120 to R123), frame included: `v` is pushed, no other slot changes,
nothing is returned, and the host's inputs stay. -/
def State.Pushed (s t : State) (v : F80) : Prop :=
  t.top = s.top - 1 ∧ t.readSlot (s.top - 1) = v ∧ s.SameSlotsBut t (s.top - 1) ∧ t.DrivesNothing
    ∧ t.inputs = s.inputs

/-- What a store-and-pop does to the machine (R13, R124 to R126), frame included: `top` moves up, every slot keeps
its value, and `v` is returned. -/
def State.PoppedWith {n : Nat} (s t : State) (v : BitVec n) : Prop :=
  t.top = s.top + 1 ∧ (∀ q, t.readSlot q = s.readSlot q) ∧ t.DrivesData v
    ∧ t.inputs = s.inputs

/-- What an add does to the slots and the ports (R127 to R132), frame included: slot `p` receives the sum where the
adder defines one, no other slot changes, and nothing is returned; `top` is the statement's to say. -/
def State.SlotReceivesSum (s t : State) (p : StackIndex) (sum : Option F80) : Prop :=
  (∀ r, sum = some r → t.readSlot p = r) ∧ s.SameSlotsBut t p ∧ t.DrivesNothing
    ∧ t.inputs = s.inputs

/-- `y` is the pattern of a format nearest to the number `q`, and has an even significand when another pattern's
number is as near (R88, R93 c, d); `value` gives a pattern's number (R54). -/
def RoundsToNearestEven {w : Nat} (value : BitVec w → Option ℚ) (q : ℚ) (y : BitVec w) : Prop :=
  ∃ r, value y = some r ∧ ∀ z r', value z = some r' →
    |q - r| ≤ |q - r'| ∧ (|q - r| = |q - r'| → r' ≠ r → y.getLsbD 0 = false)

end Sys2Proof.Machine
end

