-- ==== Sys2Proof/Certificates/Slice0/Obligations.lean ====
section
/-! DEFINITION. The statements for the provers. Each docstring says which rule of the spec it formalises. -/

open Sys2Proof Sys2Proof.Machine

/-! ### Encodings -/

/-- R39: the complete list of legal command words, each decoded with its operands, and no other word legal. -/
def Obligations.CommandWordsOfTheTableDecode : Prop :=
  (∀ d : F80, decode ⟨0x00, d⟩ = some (.loadF32 (d.extractLsb' 0 32))) ∧
  (∀ d : F80, decode ⟨0x08, d⟩ = some (.loadF64 (d.extractLsb' 0 64))) ∧
  (∀ d : F80, decode ⟨0x10, d⟩ = some (.loadF80 d)) ∧
  (∀ (d : F80) (i : BitVec 3), decode ⟨0x20 ||| i.setWidth 8, d⟩ = some (.loadFromStack i)) ∧
  (∀ d : F80, decode ⟨0x40, d⟩ = some .storeAndPopF32) ∧
  (∀ d : F80, decode ⟨0x48, d⟩ = some .storeAndPopF64) ∧
  (∀ d : F80, decode ⟨0x50, d⟩ = some .storeAndPopF80) ∧
  (∀ d : F80, decode ⟨0x60, d⟩ = some (.addF32 (d.extractLsb' 0 32))) ∧
  (∀ d : F80, decode ⟨0x68, d⟩ = some (.addF64 (d.extractLsb' 0 64))) ∧
  (∀ d : F80, decode ⟨0x70, d⟩ = some (.addF80 d)) ∧
  (∀ (d : F80) (i : BitVec 3), decode ⟨0x80 ||| i.setWidth 8, d⟩ = some (.addStack i)) ∧
  (∀ (d : F80) (i : BitVec 3), decode ⟨0xA0 ||| i.setWidth 8, d⟩ = some (.addPop i)) ∧
  (∀ (w : BitVec 8) (d : F80),
    w ∉ [0x00#8, 0x08#8, 0x10#8, 0x40#8, 0x48#8, 0x50#8, 0x60#8, 0x68#8, 0x70#8] →
    w &&& 0xF8 ∉ [0x20#8, 0x80#8, 0xA0#8] → decode ⟨w, d⟩ = none)

/-- R38 and R141: which words are illegal, how many are legal, that the model's step answers the fault, and that on
the hardware's ports the fault is raised with no data and no effect on the stack. -/
def Obligations.IllegalWordsFaultWithoutEffect : Prop :=
  (∀ c : Command, decode c = none ↔
    let op := c.cmd.extractLsb' 5 3
    let fmt := c.cmd.extractLsb' 3 2
    let idx := c.cmd.extractLsb' 0 3
    (op = 0b110 ∨ op = 0b111) ∨
    ((op = 0b000 ∨ op = 0b010 ∨ op = 0b011) ∧ fmt = 0b11) ∨
    ((op = 0b000 ∨ op = 0b010 ∨ op = 0b011) ∧ idx ≠ 0b000) ∨
    ((op = 0b001 ∨ op = 0b100 ∨ op = 0b101) ∧ fmt ≠ 0b00)) ∧
  ((List.range 256).countP fun n => (decode ⟨BitVec.ofNat 8 n, 0⟩).isSome) = 33 ∧
  (∀ (c : Command) (s : State) (rest : List PortInput), decode c = none →
    s.inputs = ⟨false, true, c⟩ :: rest → step s = .fault .illegalCommand) ∧
  (∀ (c : Command) (s : State), decode c = none →
    let t := hardwareStep ⟨false, true, c⟩ s
    s.SameStack t ∧ t.dout = 0 ∧ t.doutValid = false ∧ t.fault = true)

/-- Decoding the command the encoder writes gives the instruction back, for every instruction and every operand
value: no bit of an encoding is dropped (R34 to R37, R39, R21). -/
def Obligations.DecodeOfEncodeGivesTheInstruction : Prop :=
  ∀ i : Instr, i.wellFormed = true → decode (encode i) = some i

/-- A legal command is the encoder's: its word exactly, and its data operand on the bits the command reads; so a
command word has one meaning (R39), and the data input matters only in those bits (R21). That the encoder's `din` is
zero in every bit the command ignores is the model's choice (log entry 5, DESIGN CHOICE): R21 only has them ignored. -/
def Obligations.EncodeOfDecodeGivesTheCommand : Prop :=
  (∀ (c : Command) (i : Instr), decode c = some i →
    (encode i).cmd = c.cmd ∧ (encode i).din.toNat = c.din.toNat % 2 ^ dinBits i) ∧
  (∀ (c : Command) (i : Instr) (d : F80), decode c = some i →
    d.toNat % 2 ^ dinBits i = c.din.toNat % 2 ^ dinBits i → decode ⟨c.cmd, d⟩ = some i)

/-- The assembler (R37, R41; decision D15): exactly the well-formed lines assemble; an index in `0..7` is itself and
one left out means 1; a value written as a pattern that fits its format is that pattern; a value written as the text
of a pattern is that pattern. Two things are the model's, not the spec's (log entry 6, DEDUCED), there and within
`wellFormed`: a number of `2^w` or more is refused as the pattern of a `w`-bit format, and the reader accepts no text
but the printed ones. -/
def Obligations.AssemblerAcceptsWellFormedLines : Prop :=
  (∀ a : Asm, (assemble a).isSome = a.wellFormed) ∧
  assemble .storeAndPopF32 = some .storeAndPopF32 ∧ assemble .storeAndPopF64 = some .storeAndPopF64 ∧
  assemble .storeAndPopF80 = some .storeAndPopF80 ∧
  assemble (.loadFromStack none) = some (.loadFromStack 1) ∧ assemble (.addStack none) = some (.addStack 1) ∧
  assemble (.addPop none) = some (.addPop 1) ∧
  (∀ i : StackIndex, assemble (.loadFromStack (some i.toNat)) = some (.loadFromStack i) ∧
    assemble (.addStack (some i.toNat)) = some (.addStack i) ∧ assemble (.addPop (some i.toNat)) = some (.addPop i)) ∧
  (∀ n, 8 ≤ n → assemble (.loadFromStack (some n)) = none ∧ assemble (.addStack (some n)) = none ∧
    assemble (.addPop (some n)) = none) ∧
  (∀ v : F32, assemble (.loadF32 (.pattern v.toNat)) = some (.loadF32 v) ∧
    assemble (.addF32 (.pattern v.toNat)) = some (.addF32 v) ∧
    assemble (.loadF32 (.text (toTextF32 v))) = some (.loadF32 v) ∧
    assemble (.addF32 (.text (toTextF32 v))) = some (.addF32 v)) ∧
  (∀ v : F64, assemble (.loadF64 (.pattern v.toNat)) = some (.loadF64 v) ∧
    assemble (.addF64 (.pattern v.toNat)) = some (.addF64 v) ∧
    assemble (.loadF64 (.text (toTextF64 v))) = some (.loadF64 v) ∧
    assemble (.addF64 (.text (toTextF64 v))) = some (.addF64 v)) ∧
  (∀ v : F80, assemble (.loadF80 (.pattern v.toNat)) = some (.loadF80 v) ∧
    assemble (.addF80 (.pattern v.toNat)) = some (.addF80 v) ∧
    assemble (.loadF80 (.text (toTextF80 v))) = some (.loadF80 v) ∧
    assemble (.addF80 (.text (toTextF80 v))) = some (.addF80 v)) ∧
  (∀ n, (2 ^ 32 ≤ n → assemble (.loadF32 (.pattern n)) = none ∧ assemble (.addF32 (.pattern n)) = none) ∧
    (2 ^ 64 ≤ n → assemble (.loadF64 (.pattern n)) = none ∧ assemble (.addF64 (.pattern n)) = none) ∧
    (2 ^ 80 ≤ n → assemble (.loadF80 (.pattern n)) = none ∧ assemble (.addF80 (.pattern n)) = none)) ∧
  (∀ cs, (∀ v, parseTextF32 cs = some v → cs = toTextF32 v) ∧ (∀ v, parseTextF64 cs = some v → cs = toTextF64 v) ∧
    (∀ v, parseTextF80 cs = some v → cs = toTextF80 v))

/-! ### The hand-over of a command, reset, and whole-machine rules -/

/-- R153 as the model has it: a step on a presented command that decodes to a well-formed instruction is that
instruction's meaning, on the state from which the hand-over has been taken off the host's list. -/
def Obligations.StepRunsTheDecodedCommand : Prop :=
  ∀ (s : State) (c : Command) (rest : List PortInput) (i : Instr),
    s.inputs = ⟨false, true, c⟩ :: rest → decode c = some i → i.wellFormed = true →
    step s = exec i { s with inputs := rest }

/-- R151 and R19: the reset state, complete. R150 (decision D10): asserting reset brings the core there whatever it
held and whatever is presented. That reset wins over a command presented with it is the model's reading of R150, and
that the rest of what the host presents stays is the model's choice (log entry 2, for both). -/
def Obligations.ResetStateIsAllZero : Prop :=
  (State.reset.top = 0 ∧ (∀ p, State.reset.readSlot p = 0) ∧
    State.reset.dout = 0 ∧ State.reset.doutValid = false ∧ State.reset.fault = false) ∧
  (∀ (s : State) (valid : Bool) (c : Command) (rest : List PortInput),
    s.inputs = ⟨true, valid, c⟩ :: rest →
    ∃ t, step s = .next t ∧ t.top = 0 ∧ (∀ p, t.readSlot p = 0) ∧
      t.dout = 0 ∧ t.doutValid = false ∧ t.fault = false ∧ t.inputs = rest)

/-- With no command presented the core waits (R151, R153). That the outputs keep their values meanwhile is the
model's choice (log entry 3). -/
def Obligations.WithoutACommandTheCoreWaits : Prop :=
  (∀ s : State, s.inputs = [] → step s = .next s) ∧
  (∀ (s : State) (c : Command) (rest : List PortInput),
    s.inputs = ⟨false, false, c⟩ :: rest → step s = .next { s with inputs := rest })

/-- R17, and which commands change what (R120 to R131): without reset, a slot changes only by a load or an add, and
`top` only by a load, a store or `add_pop`; an input with no command, or none at all, changes neither. -/
def Obligations.OnlyCommandsChangeTheStack : Prop :=
  ∀ s t : State, step s = .next t → (∀ p rest, s.inputs = p :: rest → p.rst = false) →
    ((∃ q, t.readSlot q ≠ s.readSlot q) → ∃ p rest i, s.inputs = p :: rest ∧ p.cmdValid = true ∧
      decode p.command = some i ∧ i ≠ .storeAndPopF32 ∧ i ≠ .storeAndPopF64 ∧ i ≠ .storeAndPopF80) ∧
    (t.top ≠ s.top → ∃ p rest i, s.inputs = p :: rest ∧ p.cmdValid = true ∧ decode p.command = some i ∧
      (∀ v, i ≠ .addF32 v) ∧ (∀ v, i ≠ .addF64 v) ∧ (∀ v, i ≠ .addF80 v) ∧ (∀ n, i ≠ .addStack n))

/-- R21 and decision D8: `dout_valid` is 1 exactly for a store-and-pop; every other command drives `dout = 0`. No
legal command raises the fault (R133). -/
def Obligations.OnlyStoresDriveData : Prop :=
  ∀ (i : Instr) (s t : State), exec i s = .next t →
    (t.doutValid = true ↔ i = .storeAndPopF32 ∨ i = .storeAndPopF64 ∨ i = .storeAndPopF80) ∧
    (t.doutValid = false → t.dout = 0) ∧ t.fault = false

/-- R156, with R13 and R120 to R132: every legal command completes, in every state. It changes at most one slot, moves
`top` by one place or leaves it, and takes nothing from the host's list. -/
def Obligations.EveryLegalCommandCompletes : Prop :=
  ∀ (i : Instr) (s : State), ∃ t, exec i s = .next t ∧ (∃ p, s.SameSlotsBut t p) ∧
    (t.top = s.top ∨ t.top = s.top - 1 ∨ t.top = s.top + 1) ∧ t.inputs = s.inputs

/-- If the output ports agree with one another, they do so after every step: where a command completes or faults because
R21 and R141 say what it drives, at reset by R151. Where the core only waits it is because the outputs keep their
values, which the spec does not say and is the model's choice (log entry 3, DESIGN CHOICE). So on the model's step, and
on the hardware's, which goes on after a fault (R145). -/
def Obligations.StepsKeepTheOutputsConsistent : Prop :=
  (∀ s t : State, s.OutputsConsistent → step s = .next t → t.OutputsConsistent) ∧
  (∀ (p : PortInput) (s : State), s.OutputsConsistent → (hardwareStep p s).OutputsConsistent)

/-- The invariant of the outputs holds at reset (R151). -/
def Obligations.ResetMeetsTheOutputInvariant : Prop := State.reset.OutputsConsistent

/-! ### The commands (44_stack_ops.md) -/

/-- R120: `load_F32` pushes the expanded operand. -/
def Obligations.LoadF32PushesTheExpandedOperand : Prop :=
  ∀ (d : F80) (s : State), decode ⟨0x00, d⟩ = some (.loadF32 (d.extractLsb' 0 32)) ∧
    ∃ t, exec (.loadF32 (d.extractLsb' 0 32)) s = .next t ∧ s.Pushed t (expandF32 (d.extractLsb' 0 32))

/-- R121: `load_F64` pushes the expanded operand. -/
def Obligations.LoadF64PushesTheExpandedOperand : Prop :=
  ∀ (d : F80) (s : State), decode ⟨0x08, d⟩ = some (.loadF64 (d.extractLsb' 0 64)) ∧
    ∃ t, exec (.loadF64 (d.extractLsb' 0 64)) s = .next t ∧ s.Pushed t (expandF64 (d.extractLsb' 0 64))

/-- R122: `load_F80` pushes the operand bit for bit, whatever it is. -/
def Obligations.LoadF80PushesTheOperandBitForBit : Prop :=
  ∀ (d : F80) (s : State), decode ⟨0x10, d⟩ = some (.loadF80 d) ∧
    ∃ t, exec (.loadF80 d) s = .next t ∧ s.Pushed t d

/-- R123: `load_from_stack i` pushes `st(i)` of the state before the push; afterwards the source is `st(i+1)`. With
`i = 7` the slot written is the slot read. Written without an index it is `i = 1`. -/
def Obligations.LoadFromStackPushesTheOldRegister : Prop :=
  assemble (.loadFromStack none) = some (.loadFromStack 1) ∧
  ∀ (i : BitVec 3) (d : F80) (s : State), decode ⟨0x20 ||| i.setWidth 8, d⟩ = some (.loadFromStack i) ∧
    ∃ t, exec (.loadFromStack i) s = .next t ∧ s.Pushed t (s.readSlot (s.top + i)) ∧
      t.st (i + 1) = s.readSlot (s.top + i) ∧ (i = 7 → ∀ q, t.readSlot q = s.readSlot q)

/-- R124: `store_and_pop_F80` returns `st(0)` unchanged and pops. -/
def Obligations.StoreAndPopF80ReturnsTheTopUnchanged : Prop :=
  ∀ (d : F80) (s : State), decode ⟨0x50, d⟩ = some .storeAndPopF80 ∧
    ∃ t, exec .storeAndPopF80 s = .next t ∧ s.PoppedWith t (s.readSlot s.top)

/-- R125: `store_and_pop_F64` returns `st(0)` compressed and pops, whatever the conversion gives; the slot keeps the
unrounded value. -/
def Obligations.StoreAndPopF64ReturnsTheCompressedTop : Prop :=
  ∀ (d : F80) (s : State), decode ⟨0x48, d⟩ = some .storeAndPopF64 ∧
    ∃ t, exec .storeAndPopF64 s = .next t ∧ s.PoppedWith t (compressF64 (s.readSlot s.top))

/-- R126: `store_and_pop_F32` returns `st(0)` compressed and pops. -/
def Obligations.StoreAndPopF32ReturnsTheCompressedTop : Prop :=
  ∀ (d : F80) (s : State), decode ⟨0x40, d⟩ = some .storeAndPopF32 ∧
    ∃ t, exec .storeAndPopF32 s = .next t ∧ s.PoppedWith t (compressF32 (s.readSlot s.top))

/-- R127: `add_F32` adds the expanded operand to `st(0)`. Where the adder defines no result the command completes all
the same (R132). -/
def Obligations.AddF32AddsTheExpandedOperand : Prop :=
  ∀ (d : F80) (s : State), decode ⟨0x60, d⟩ = some (.addF32 (d.extractLsb' 0 32)) ∧
    ∃ t, exec (.addF32 (d.extractLsb' 0 32)) s = .next t ∧ t.top = s.top ∧
      s.SlotReceivesSum t s.top (add80 (s.readSlot s.top) (expandF32 (d.extractLsb' 0 32)) 0)

/-- R128: `add_F64` adds the expanded operand to `st(0)`. -/
def Obligations.AddF64AddsTheExpandedOperand : Prop :=
  ∀ (d : F80) (s : State), decode ⟨0x68, d⟩ = some (.addF64 (d.extractLsb' 0 64)) ∧
    ∃ t, exec (.addF64 (d.extractLsb' 0 64)) s = .next t ∧ t.top = s.top ∧
      s.SlotReceivesSum t s.top (add80 (s.readSlot s.top) (expandF64 (d.extractLsb' 0 64)) 0)

/-- R129: `add_F80` adds the operand, used as given, to `st(0)`. -/
def Obligations.AddF80AddsTheOperandAsGiven : Prop :=
  ∀ (d : F80) (s : State), decode ⟨0x70, d⟩ = some (.addF80 d) ∧
    ∃ t, exec (.addF80 d) s = .next t ∧ t.top = s.top ∧
      s.SlotReceivesSum t s.top (add80 (s.readSlot s.top) d 0)

/-- R130: `add_stack i` adds `st(i)` to `st(0)`, both read before the write; with `i = 0` a canonical normal keeps its
significand and its exponent goes up by one. Written without an index it is `i = 1`. -/
def Obligations.AddStackAddsTheRegister : Prop :=
  assemble (.addStack none) = some (.addStack 1) ∧
  ∀ (i : BitVec 3) (d : F80) (s : State), decode ⟨0x80 ||| i.setWidth 8, d⟩ = some (.addStack i) ∧
    ∃ t, exec (.addStack i) s = .next t ∧ t.top = s.top ∧
      s.SlotReceivesSum t s.top (add80 (s.readSlot s.top) (s.readSlot (s.top + i)) 0) ∧
      (i = 0 → classifyF80 (s.readSlot s.top) = .normal → (unpackF80 (s.readSlot s.top)).e ≠ 0x7FFE →
        unpackF80 (t.readSlot s.top) =
          { unpackF80 (s.readSlot s.top) with e := (unpackF80 (s.readSlot s.top)).e + 1 })

/-- R131: `add_pop i` adds `st(0)` to `st(i)`, the index taken before the pop, and pops; the sum is then at
`st(i-1)`. Written without an index it is `i = 1`. -/
def Obligations.AddPopAddsThenPops : Prop :=
  assemble (.addPop none) = some (.addPop 1) ∧
  ∀ (i : BitVec 3) (d : F80) (s : State), decode ⟨0xA0 ||| i.setWidth 8, d⟩ = some (.addPop i) ∧
    ∃ t, exec (.addPop i) s = .next t ∧ t.top = s.top + 1 ∧
      s.SlotReceivesSum t (s.top + i) (add80 (s.readSlot (s.top + i)) (s.readSlot s.top) 0) ∧
      t.st (i - 1) = t.readSlot (s.top + i)

/-- R132: where the adder defines no result every add command completes, the destination register receives an
unspecified pattern, and every other effect is as the command's rule says. That this pattern is the opaque constant
`Config.freeValue` of the operands and `sub`, of which nothing is known, is the model's choice of form (log entry 1);
that it depends on nothing else is R111. -/
def Obligations.UnspecifiedSumReachesOnlyTheDestination : Prop :=
  (∀ (i : Instr) (b : F80) (s : State),
    (∃ v, i = .addF32 v ∧ b = expandF32 v) ∨ (∃ v, i = .addF64 v ∧ b = expandF64 v) ∨ i = .addF80 b ∨
      (∃ n, i = .addStack n ∧ b = s.readSlot (s.top + n)) →
    add80 (s.readSlot s.top) b 0 = none →
    ∃ t, exec i s = .next t ∧ t.readSlot s.top = Config.freeValue (s.readSlot s.top) b 0 ∧
      s.SameSlotsBut t s.top ∧ t.top = s.top ∧ t.DrivesNothing ∧ t.inputs = s.inputs) ∧
  (∀ (n : BitVec 3) (s : State), add80 (s.readSlot (s.top + n)) (s.readSlot s.top) 0 = none →
    ∃ t, exec (.addPop n) s = .next t ∧
      t.readSlot (s.top + n) = Config.freeValue (s.readSlot (s.top + n)) (s.readSlot s.top) 0 ∧
      s.SameSlotsBut t (s.top + n) ∧ t.top = s.top + 1 ∧ t.DrivesNothing ∧ t.inputs = s.inputs)

/-! ### `fp_format` (40_formats.md) -/

/-- R45 to R48: where the three fields lie in a packed word, for unpacking and for packing, in each format; and R33:
they are total and disjoint, so packing and unpacking are inverse of one another. -/
def Obligations.PackAndUnpackAreInverse : Prop :=
  (∀ b : F32, (unpackF32 b).s.toNat = b.toNat / 2 ^ 31 ∧ (unpackF32 b).e.toNat = b.toNat / 2 ^ 23 % 2 ^ 8 ∧
    (unpackF32 b).m.toNat = b.toNat % 2 ^ 23) ∧
  (∀ b : F64, (unpackF64 b).s.toNat = b.toNat / 2 ^ 63 ∧ (unpackF64 b).e.toNat = b.toNat / 2 ^ 52 % 2 ^ 11 ∧
    (unpackF64 b).m.toNat = b.toNat % 2 ^ 52) ∧
  (∀ b : F80, (unpackF80 b).s.toNat = b.toNat / 2 ^ 79 ∧ (unpackF80 b).e.toNat = b.toNat / 2 ^ 64 % 2 ^ 15 ∧
    (unpackF80 b).m.toNat = b.toNat % 2 ^ 64) ∧
  (∀ t, (packF32 t).toNat = t.s.toNat * 2 ^ 31 + t.e.toNat * 2 ^ 23 + t.m.toNat) ∧
  (∀ t, (packF64 t).toNat = t.s.toNat * 2 ^ 63 + t.e.toNat * 2 ^ 52 + t.m.toNat) ∧
  (∀ t, (packF80 t).toNat = t.s.toNat * 2 ^ 79 + t.e.toNat * 2 ^ 64 + t.m.toNat) ∧
  (∀ b : F32, packF32 (unpackF32 b) = b) ∧ (∀ t, unpackF32 (packF32 t) = t) ∧
  (∀ b : F64, packF64 (unpackF64 b) = b) ∧ (∀ t, unpackF64 (packF64 t) = t) ∧
  (∀ b : F80, packF80 (unpackF80 b) = b) ∧ (∀ t, unpackF80 (packF80 t) = t)

/-- R51: the class of a narrow pattern, row by row, for both formats. -/
def Obligations.NarrowClassesFollowTheTable : Prop :=
  (∀ (s : BitVec 1) (e : BitVec 8) (m : BitVec 23), let c := classifyF32 (packF32 ⟨s, e, m⟩)
    (c = .zero ↔ e = 0 ∧ m = 0) ∧ (c = .denormal ↔ e = 0 ∧ m ≠ 0) ∧ (c = .infinity ↔ e = 0xFF ∧ m = 0) ∧
    (c = .quietNaN ↔ e = 0xFF ∧ m ≠ 0 ∧ m.getLsbD 22 = true) ∧
    (c = .signallingNaN ↔ e = 0xFF ∧ m ≠ 0 ∧ m.getLsbD 22 = false) ∧ (c = .normal ↔ e ≠ 0 ∧ e ≠ 0xFF)) ∧
  (∀ (s : BitVec 1) (e : BitVec 11) (m : BitVec 52), let c := classifyF64 (packF64 ⟨s, e, m⟩)
    (c = .zero ↔ e = 0 ∧ m = 0) ∧ (c = .denormal ↔ e = 0 ∧ m ≠ 0) ∧ (c = .infinity ↔ e = 0x7FF ∧ m = 0) ∧
    (c = .quietNaN ↔ e = 0x7FF ∧ m ≠ 0 ∧ m.getLsbD 51 = true) ∧
    (c = .signallingNaN ↔ e = 0x7FF ∧ m ≠ 0 ∧ m.getLsbD 51 = false) ∧ (c = .normal ↔ e ≠ 0 ∧ e ≠ 0x7FF))

/-- R52: the class of an F80 pattern, row by row, and which classes are canonical. -/
def Obligations.F80ClassesFollowTheTable : Prop :=
  ∀ (s : BitVec 1) (e : BitVec 15) (m : BitVec 64), let c := classifyF80 (packF80 ⟨s, e, m⟩)
    let frac := m.extractLsb' 0 63
    (c = .zero ↔ e = 0 ∧ m = 0) ∧
    (c = .denormal ↔ e = 0 ∧ m ≠ 0 ∧ m.getLsbD 63 = false) ∧
    (c = .pseudoDenormal ↔ e = 0 ∧ m.getLsbD 63 = true) ∧
    (c = .normal ↔ e ≠ 0 ∧ e ≠ 0x7FFF ∧ m.getLsbD 63 = true) ∧
    (c = .unnormal ↔ e ≠ 0 ∧ e ≠ 0x7FFF ∧ m.getLsbD 63 = false) ∧
    (c = .infinity ↔ e = 0x7FFF ∧ m = 0x8000000000000000) ∧
    (c = .pseudoInfinity ↔ e = 0x7FFF ∧ m = 0) ∧
    (c = .quietNaN ↔ e = 0x7FFF ∧ frac ≠ 0 ∧ m.getLsbD 63 = true ∧ m.getLsbD 62 = true) ∧
    (c = .signallingNaN ↔ e = 0x7FFF ∧ frac ≠ 0 ∧ m.getLsbD 63 = true ∧ m.getLsbD 62 = false) ∧
    (c = .pseudoNaN ↔ e = 0x7FFF ∧ frac ≠ 0 ∧ m.getLsbD 63 = false) ∧
    (c.canonical = true ↔ c ≠ .pseudoDenormal ∧ c ≠ .unnormal ∧ c ≠ .pseudoInfinity ∧ c ≠ .pseudoNaN)

/-- R53: `equal` is 1 when every bit of the two patterns agrees, else 0. -/
def Obligations.EqualComparesBits : Prop :=
  ∀ (w : Nat) (x y : BitVec w),
    (equalBits x y = 1 ↔ ∀ k, k < w → x.getLsbD k = y.getLsbD k) ∧ (equalBits x y = 1 ∨ equalBits x y = 0)

/-- R22 (decision D4): the byte image has one byte for each eight bits, lowest first, and determines the pattern. -/
def Obligations.ByteImageIsLittleEndian : Prop :=
  ∀ (n : Nat) (b : BitVec (8 * n)), (byteImage n b).length = n ∧
    (∀ k, k < n → (byteImage n b)[k]? = some (b.extractLsb' (8 * k) 8)) ∧ ofByteImage (byteImage n b) = b.toNat

/-- The text of R42 and R55 (decision D19) has one character for each digit and underscore of its form, and reads back
as the pattern, in each format. The rules print only: the reader is the model's own (log entry 6). -/
def Obligations.TextFormsReadBack : Prop :=
  (∀ b : F32, parseTextF32 (toTextF32 b) = some b ∧ (toTextF32 b).length = 11) ∧
  (∀ b : F64, parseTextF64 (toTextF64 b) = some b ∧ (toTextF64 b).length = 19) ∧
  (∀ b : F80, parseTextF80 (toTextF80 b) = some b ∧ (toTextF80 b).length = 25)

/-! ### `fp_expand` (41_expand.md) -/

/-- R66, R67 and R68: infinities, NaNs and zeros, both formats. -/
def Obligations.ExpandOfInfinityNaNAndZero : Prop :=
  ∀ s : BitVec 1,
    expandF32 (packF32 ⟨s, 0xFF, 0⟩) = packF80 ⟨s, 0x7FFF, 0x8000000000000000⟩ ∧
    expandF64 (packF64 ⟨s, 0x7FF, 0⟩) = packF80 ⟨s, 0x7FFF, 0x8000000000000000⟩ ∧
    (∀ m : BitVec 23, m ≠ 0 → expandF32 (packF32 ⟨s, 0xFF, m⟩) =
      packF80 ⟨s, 0x7FFF, (m.setWidth 64 <<< 40) ||| 0xC000000000000000#64⟩) ∧
    (∀ m : BitVec 52, m ≠ 0 → expandF64 (packF64 ⟨s, 0x7FF, m⟩) =
      packF80 ⟨s, 0x7FFF, (m.setWidth 64 <<< 11) ||| 0xC000000000000000#64⟩) ∧
    expandF32 (packF32 ⟨s, 0, 0⟩) = packF80 ⟨s, 0, 0⟩ ∧
    expandF64 (packF64 ⟨s, 0, 0⟩) = packF80 ⟨s, 0, 0⟩

/-- R70: a normal: the exponent rebased by a constant, the implicit leading 1 made explicit. -/
def Obligations.ExpandOfNormals : Prop :=
  (∀ (s : BitVec 1) (e : BitVec 8) (m : BitVec 23), e ≠ 0 → e ≠ 0xFF →
    expandF32 (packF32 ⟨s, e, m⟩) =
      packF80 ⟨s, e.setWidth 15 + 0x3F80, 0x8000000000000000#64 ||| (m.setWidth 64 <<< 40)⟩) ∧
  (∀ (s : BitVec 1) (e : BitVec 11) (m : BitVec 52), e ≠ 0 → e ≠ 0x7FF →
    expandF64 (packF64 ⟨s, e, m⟩) =
      packF80 ⟨s, e.setWidth 15 + 0x3C00, 0x8000000000000000#64 ||| (m.setWidth 64 <<< 11)⟩)

/-- The closed form the spec derives from R69's loop: with `k` the index of the highest 1 of `m`, one shift does it.
-/
def Obligations.ExpandOfDenormalsInClosedForm : Prop :=
  (∀ (s : BitVec 1) (m : BitVec 23) (k : Nat), 2 ^ k ≤ m.toNat → m.toNat < 2 ^ (k + 1) →
    expandF32 (packF32 ⟨s, 0, m⟩) = packF80 ⟨s, BitVec.ofNat 15 (0x3F6A + k), m.setWidth 64 <<< (63 - k)⟩) ∧
  (∀ (s : BitVec 1) (m : BitVec 52) (k : Nat), 2 ^ k ≤ m.toNat → m.toNat < 2 ^ (k + 1) →
    expandF64 (packF64 ⟨s, 0, m⟩) = packF80 ⟨s, BitVec.ofNat 15 (0x3BCD + k), m.setWidth 64 <<< (63 - k)⟩)

/-- What the spec derives of `fp_expand` as a whole (R71, R73): the sign is kept and every output is canonical,
neither denormal nor signalling. -/
def Obligations.ExpandKeepsTheSignAndIsCanonical : Prop :=
  (∀ b : F32, (unpackF80 (expandF32 b)).s = (unpackF32 b).s ∧
    classifyF80 (expandF32 b) ∈ [F80Class.zero, .normal, .infinity, .quietNaN]) ∧
  (∀ b : F64, (unpackF80 (expandF64 b)).s = (unpackF64 b).s ∧
    classifyF80 (expandF64 b) ∈ [F80Class.zero, .normal, .infinity, .quietNaN])

/-- Widening is exact (R71 and R134 d, in terms of R54): a finite narrow pattern and its expansion stand for one
number, and so does a finite F32 widened through the core to F64. -/
def Obligations.WideningIsExact : Prop :=
  (∀ (b : F32) (q : ℚ), valueF32 b = some q → valueF80 (expandF32 b) = some q) ∧
  (∀ (b : F64) (q : ℚ), valueF64 b = some q → valueF80 (expandF64 b) = some q) ∧
  (∀ (b : F32) (q : ℚ), valueF32 b = some q → valueF64 (compressF64 (expandF32 b)) = some q)

/-! ### `fp_compress` (42_compress.md) -/

/-- R81 and R82: infinity is recognised by the fraction; a NaN stays a NaN, quiet, its payload truncated. -/
def Obligations.CompressOfInfinityAndNaN : Prop :=
  ∀ (s : BitVec 1) (m : BitVec 64),
    (m.extractLsb' 0 63 = 0 → compressF32 (packF80 ⟨s, 0x7FFF, m⟩) = packF32 ⟨s, 0xFF, 0⟩ ∧
      compressF64 (packF80 ⟨s, 0x7FFF, m⟩) = packF64 ⟨s, 0x7FF, 0⟩) ∧
    (m.extractLsb' 0 63 ≠ 0 →
      compressF32 (packF80 ⟨s, 0x7FFF, m⟩) = packF32 ⟨s, 0xFF, 1#1 ++ m.extractLsb' 40 22⟩ ∧
      compressF64 (packF80 ⟨s, 0x7FFF, m⟩) = packF64 ⟨s, 0x7FF, 1#1 ++ m.extractLsb' 11 51⟩)

/-- R83, R84 and R85: the rebased exponent; at `exp_max` or above infinity, below `-sw` a zero, sign kept, and the
significand not looked at. -/
def Obligations.CompressOverflowsAndFlushes : Prop :=
  ∀ (s : BitVec 1) (e : BitVec 15) (m : BitVec 64), e ≠ 0x7FFF →
    ((255 : Int) ≤ e.toNat - 16383 + 127 → compressF32 (packF80 ⟨s, e, m⟩) = packF32 ⟨s, 0xFF, 0⟩) ∧
    ((2047 : Int) ≤ e.toNat - 16383 + 1023 → compressF64 (packF80 ⟨s, e, m⟩) = packF64 ⟨s, 0x7FF, 0⟩) ∧
    ((e.toNat : Int) - 16383 + 127 < -23 → compressF32 (packF80 ⟨s, e, m⟩) = packF32 ⟨s, 0, 0⟩) ∧
    ((e.toNat : Int) - 16383 + 1023 < -52 → compressF64 (packF80 ⟨s, e, m⟩) = packF64 ⟨s, 0, 0⟩)

/-- R87, R88 and R89 together: on the normal tail the packed result is the truncated pattern, plus one when the
discarded bits are above half or at half with an odd pattern; the carry runs into the exponent, up to infinity. -/
def Obligations.CompressRoundsTheNormalTail : Prop :=
  (∀ (s : BitVec 1) (e : BitVec 15) (m : BitVec 64), 0x3F81 ≤ e.toNat → e.toNat ≤ 0x407E →
    let kept := (m.toNat % 2 ^ 63) / 2 ^ 40
    let gone := m.toNat % 2 ^ 40
    (compressF32 (packF80 ⟨s, e, m⟩)).toNat = s.toNat * 2 ^ 31 + (e.toNat - 16256) * 2 ^ 23 + kept +
      (if 2 ^ 39 < gone ∨ (gone = 2 ^ 39 ∧ kept % 2 = 1) then 1 else 0)) ∧
  (∀ (s : BitVec 1) (e : BitVec 15) (m : BitVec 64), 0x3C01 ≤ e.toNat → e.toNat ≤ 0x43FE →
    let kept := (m.toNat % 2 ^ 63) / 2 ^ 11
    let gone := m.toNat % 2 ^ 11
    (compressF64 (packF80 ⟨s, e, m⟩)).toNat = s.toNat * 2 ^ 63 + (e.toNat - 15360) * 2 ^ 52 + kept +
      (if 2 ^ 10 < gone ∨ (gone = 2 ^ 10 ∧ kept % 2 = 1) then 1 else 0))

/-- R86, R88 and R89 together: on the denormal tail the integer bit is set, the shift grows by one for each exponent
step down, and a carry out of the significand makes the smallest normal. -/
def Obligations.CompressRoundsTheDenormalTail : Prop :=
  (∀ (s : BitVec 1) (e : BitVec 15) (m : BitVec 64), 0x3F69 ≤ e.toNat → e.toNat ≤ 0x3F80 →
    let shift := 41 + (0x3F80 - e.toNat)
    let full := m.toNat % 2 ^ 63 + 2 ^ 63
    (compressF32 (packF80 ⟨s, e, m⟩)).toNat = s.toNat * 2 ^ 31 + full / 2 ^ shift +
      (if 2 ^ (shift - 1) < full % 2 ^ shift ∨
        (full % 2 ^ shift = 2 ^ (shift - 1) ∧ full / 2 ^ shift % 2 = 1) then 1 else 0)) ∧
  (∀ (s : BitVec 1) (e : BitVec 15) (m : BitVec 64), 0x3BCC ≤ e.toNat → e.toNat ≤ 0x3C00 →
    let shift := 12 + (0x3C00 - e.toNat)
    let full := m.toNat % 2 ^ 63 + 2 ^ 63
    (compressF64 (packF80 ⟨s, e, m⟩)).toNat = s.toNat * 2 ^ 63 + full / 2 ^ shift +
      (if 2 ^ (shift - 1) < full % 2 ^ shift ∨
        (full % 2 ^ shift = 2 ^ (shift - 1) ∧ full / 2 ^ shift % 2 = 1) then 1 else 0))

/-- R90 and R93 (b): the sign is propagated in every branch, and a NaN or a pseudo-NaN stays a NaN, quiet. -/
def Obligations.CompressKeepsTheSignAndNaNs : Prop :=
  ∀ x : F80,
    (unpackF32 (compressF32 x)).s = (unpackF80 x).s ∧ (unpackF64 (compressF64 x)).s = (unpackF80 x).s ∧
    (classifyF80 x ∈ [F80Class.quietNaN, .signallingNaN, .pseudoNaN] →
      classifyF32 (compressF32 x) = .quietNaN ∧ classifyF64 (compressF64 x) = .quietNaN)

/-- R91 (decision D11): below the maximum exponent the input's integer bit makes no difference. -/
def Obligations.CompressIgnoresTheIntegerBit : Prop :=
  ∀ (s : BitVec 1) (e : BitVec 15) (m m' : BitVec 64), e ≠ 0x7FFF →
    m.extractLsb' 0 63 = m'.extractLsb' 0 63 →
    compressF32 (packF80 ⟨s, e, m⟩) = compressF32 (packF80 ⟨s, e, m'⟩) ∧
    compressF64 (packF80 ⟨s, e, m⟩) = compressF64 (packF80 ⟨s, e, m'⟩)

/-- R93 (c, d) for F32, in terms of R54: a canonical finite input is rounded to the nearest F32, ties to the even
significand; from half a unit above the largest F32 on, the result is infinity. -/
def Obligations.CompressF32IsCorrectlyRounded : Prop :=
  ∀ (x : F80) (q : ℚ), (classifyF80 x).canonical = true → valueF80 x = some q →
    (|q| < 2 ^ 128 - 2 ^ 103 → RoundsToNearestEven valueF32 q (compressF32 x)) ∧
    (2 ^ 128 - 2 ^ 103 ≤ |q| → classifyF32 (compressF32 x) = .infinity)

/-- R93 (c, d) for F64. -/
def Obligations.CompressF64IsCorrectlyRounded : Prop :=
  ∀ (x : F80) (q : ℚ), (classifyF80 x).canonical = true → valueF80 x = some q →
    (|q| < 2 ^ 1024 - 2 ^ 970 → RoundsToNearestEven valueF64 q (compressF64 x)) ∧
    (2 ^ 1024 - 2 ^ 970 ≤ |q| → classifyF64 (compressF64 x) = .infinity)

/-- R72 (d) with the extension the spec derives: expanding and compressing gives the pattern back, for every pattern
that is not a signalling NaN; a signalling NaN comes back with its quiet bit set. -/
def Obligations.NarrowPatternsSurviveTheRoundTrip : Prop :=
  (∀ v : F32, compressF32 (expandF32 v) =
    if classifyF32 v = .signallingNaN then v ||| 0x00400000 else v) ∧
  (∀ v : F64, compressF64 (expandF64 v) =
    if classifyF64 v = .signallingNaN then v ||| 0x0008000000000000 else v)

/-! ### `fp_add80` (43_adder.md) -/

/-- R110: where the adder has no result, exactly: an operand with the maximum exponent, or a carry out of an effective
addition at the largest finite exponent. -/
def Obligations.AdderHasNoResultExactlyWhere : Prop :=
  ∀ (a b : F80) (sub : BitVec 1),
    let A := unpackF80 a
    let B := unpackF80 b
    add80 a b sub = none ↔
      (A.e = 0x7FFF ∨ B.e = 0x7FFF) ∨
      (sub ^^^ A.s ^^^ B.s = 0 ∧ max A.e.toNat B.e.toNat = 0x7FFE ∧
        2 ^ 64 ≤ A.m.toNat / 2 ^ (B.e.toNat - A.e.toNat) + B.m.toNat / 2 ^ (A.e.toNat - B.e.toNat))

/-- R104 and R105: the effective addition, `a` the bigger operand: the smaller significand is shifted out of sight
without rounding; a carry drops the low bit of the sum and raises the exponent. -/
def Obligations.AdderAddsAlignedMagnitudes : Prop :=
  ∀ (a b : F80) (sub : BitVec 1),
    let A := unpackF80 a
    let B := unpackF80 b
    let sum := A.m.toNat + B.m.toNat / 2 ^ (A.e.toNat - B.e.toNat)
    A.e ≠ 0x7FFF → (B.e.toNat < A.e.toNat ∨ (B.e = A.e ∧ B.m.toNat ≤ A.m.toNat)) →
    sub ^^^ A.s ^^^ B.s = 0 →
    (sum < 2 ^ 64 → add80 a b sub = some (packF80 ⟨A.s, A.e, BitVec.ofNat 64 sum⟩)) ∧
    (2 ^ 64 ≤ sum → A.e ≠ 0x7FFE →
      add80 a b sub = some (packF80 ⟨A.s, A.e + 1, BitVec.ofNat 64 (sum / 2)⟩))

/-- R106 and R107: the effective subtraction, `a` the bigger operand: the difference modulo `2^64`, a zero of `a`'s
sign when it vanishes, and else shifted left until its top bit is set or the exponent has reached 0. -/
def Obligations.AdderSubtractsAndNormalises : Prop :=
  ∀ (a b : F80) (sub : BitVec 1),
    let A := unpackF80 a
    let B := unpackF80 b
    let d := (2 ^ 64 + A.m.toNat - B.m.toNat / 2 ^ (A.e.toNat - B.e.toNat)) % 2 ^ 64
    A.e ≠ 0x7FFF → (B.e.toNat < A.e.toNat ∨ (B.e = A.e ∧ B.m.toNat ≤ A.m.toNat)) →
    sub ^^^ A.s ^^^ B.s = 1 →
    (d = 0 → add80 a b sub = some (packF80 ⟨A.s, 0, 0⟩)) ∧
    (d ≠ 0 → ∃ n, n ≤ A.e.toNat ∧ d * 2 ^ n < 2 ^ 64 ∧ (n < A.e.toNat → 2 ^ 63 ≤ d * 2 ^ n) ∧
      add80 a b sub = some (packF80 ⟨A.s, BitVec.ofNat 15 (A.e.toNat - n), BitVec.ofNat 64 (d * 2 ^ n)⟩))

/-- R103 (decisions D12, D13) and R111: with the operands the other way round the result differs at most in its sign,
which is that of the bigger operand, flipped under `sub = 1`; so with `sub = 0` the adder commutes, but for the sign of
an exact-cancellation zero, which is the first operand's. -/
def Obligations.AdderSwapsTheOperands : Prop :=
  (∀ (a b : F80) (sub : BitVec 1),
    let A := unpackF80 a
    let B := unpackF80 b
    (B.e.toNat < A.e.toNat ∨ (B.e = A.e ∧ B.m.toNat < A.m.toNat)) →
    add80 b a sub = (add80 a b sub).map fun r => packF80 { unpackF80 r with s := (unpackF80 r).s ^^^ sub }) ∧
  (∀ a b : F80, add80 a b 0 = add80 b a 0 ∨
    (add80 a b 0 = some (packF80 ⟨(unpackF80 a).s, 0, 0⟩) ∧ add80 b a 0 = some (packF80 ⟨(unpackF80 b).s, 0, 0⟩)))

/-- R111: a zero of either sign added to a canonical denormal or normal gives it back bit for bit, in either order,
and a zero minus it gives it with its sign flipped; two zeros give the first one's sign. -/
def Obligations.ZeroIsNeutralForCanonicalOperands : Prop :=
  ∀ (x : F80) (z : BitVec 1),
    (classifyF80 x = .denormal ∨ classifyF80 x = .normal →
      add80 x (packF80 ⟨z, 0, 0⟩) 0 = some x ∧ add80 (packF80 ⟨z, 0, 0⟩) x 0 = some x ∧
      add80 (packF80 ⟨z, 0, 0⟩) x 1 = some (packF80 { unpackF80 x with s := ~~~(unpackF80 x).s })) ∧
    (classifyF80 x = .zero → add80 x (packF80 ⟨z, 0, 0⟩) 0 = some x)

/-- R109 (a), in terms of R54: for canonical normals of one sign the sum is truncated toward zero by less than one
unit of the result's last place, and exact when no 1 bit is discarded. -/
def Obligations.AdditionTruncatesTowardZero : Prop :=
  ∀ (a b r : F80) (va vb vr : ℚ), classifyF80 a = .normal → classifyF80 b = .normal →
    (unpackF80 a).s = (unpackF80 b).s → add80 a b 0 = some r →
    valueF80 a = some va → valueF80 b = some vb → valueF80 r = some vr →
    (unpackF80 r).s = (unpackF80 a).s ∧ |vr| ≤ |va + vb| ∧
    |va + vb| < |vr| + 2 ^ (((unpackF80 r).e.toNat : ℤ) - 16446) ∧
    (let A := unpackF80 a
     let B := unpackF80 b
     let x := A.m.toNat / 2 ^ (B.e.toNat - A.e.toNat) + B.m.toNat / 2 ^ (A.e.toNat - B.e.toNat)
     2 ^ (B.e.toNat - A.e.toNat) ∣ A.m.toNat → 2 ^ (A.e.toNat - B.e.toNat) ∣ B.m.toNat →
     (x < 2 ^ 64 ∨ 2 ∣ x) → vr = va + vb)

/-- R109 (a) for effective subtraction: for canonical normals of opposite signs and a result whose exponent field is
not 0, the magnitude is never too small, too large by less than one unit of the bigger operand's last place, and exact
when no 1 bit is shifted out of the smaller operand. -/
def Obligations.SubtractionErrsUpward : Prop :=
  ∀ (a b r : F80) (va vb vr : ℚ), classifyF80 a = .normal → classifyF80 b = .normal →
    (unpackF80 a).s ≠ (unpackF80 b).s → add80 a b 0 = some r → (unpackF80 r).e ≠ 0 →
    valueF80 a = some va → valueF80 b = some vb → valueF80 r = some vr →
    |va + vb| ≤ |vr| ∧
    |vr| < |va + vb| + 2 ^ ((max (unpackF80 a).e.toNat (unpackF80 b).e.toNat : ℤ) - 16446) ∧
    (let A := unpackF80 a
     let B := unpackF80 b
     2 ^ (B.e.toNat - A.e.toNat) ∣ A.m.toNat → 2 ^ (A.e.toNat - B.e.toNat) ∣ B.m.toNat → vr = va + vb)

/-! ### Runs -/

/-- R134 (a, c): a pattern loaded and stored in its own format comes back: an F80 bit for bit whatever it is, a narrow
one with a signalling NaN quieted; `top` is restored and only the slot pushed to has changed. -/
def Obligations.LoadThenStoreReturnsThePattern : Prop :=
  (∀ (v d : F80) (s : State), let run := commandRun [⟨0x10, v⟩, ⟨0x50, d⟩] s
    run.1.map (fun o => (o.doutValid, o.dout)) = [(false, 0), (true, v)] ∧ run.2.top = s.top ∧
    s.SameSlotsBut run.2 (s.top - 1)) ∧
  (∀ (d d' : F80) (s : State), let run := commandRun [⟨0x00, d⟩, ⟨0x40, d'⟩] s
    let v : F32 := d.extractLsb' 0 32
    run.1.map (fun o => (o.doutValid, o.dout)) =
      [(false, 0), (true, (if classifyF32 v = .signallingNaN then v ||| 0x00400000 else v).setWidth 80)] ∧
    run.2.top = s.top ∧ s.SameSlotsBut run.2 (s.top - 1)) ∧
  (∀ (d d' : F80) (s : State), let run := commandRun [⟨0x08, d⟩, ⟨0x48, d'⟩] s
    let v : F64 := d.extractLsb' 0 64
    run.1.map (fun o => (o.doutValid, o.dout)) =
      [(false, 0), (true, (if classifyF64 v = .signallingNaN then v ||| 0x0008000000000000 else v).setWidth 80)] ∧
    run.2.top = s.top ∧ s.SameSlotsBut run.2 (s.top - 1))

/-- R18: eight `store_and_pop_F80` return the eight registers in order and leave the stack as it was. -/
def Obligations.EightStoresReadTheWholeStack : Prop :=
  ∀ (d : F80) (s : State), let run := commandRun (List.replicate 8 ⟨0x50, d⟩) s
    run.1.map PortOutput.dout =
      [s.st 0, s.st 1, s.st 2, s.st 3, s.st 4, s.st 5, s.st 6, s.st 7] ∧ s.SameStack run.2

/-- R14: a ninth push overwrites the oldest value without a fault: only the last eight loads are on the stack. -/
def Obligations.NinthPushOverwritesTheOldest : Prop :=
  ∀ (v : F80) (vs : List F80) (s : State), vs.length = 8 →
    let run := commandRun ((v :: vs).map fun x => ⟨0x10, x⟩) s
    (∀ i : StackIndex, vs.reverse[i.toNat]? = some (run.2.st i)) ∧ (∀ o ∈ run.1, o.fault = false)

/-- R152: the outputs of any command sequence are unchanged when all slot numbers and `top` are rotated by the same
amount, and the final state is the rotated one. -/
def Obligations.RotationIsUnobservable : Prop :=
  ∀ (cs : List Command) (s : State) (k : StackIndex),
    commandRun cs (s.rotate k) = ((commandRun cs s).1, (commandRun cs s).2.rotate k)

/-- R145: after a fault the hardware takes the next commands as if the faulting one had not been presented. R16 and
R111: there is no hidden state, so from two states with the same slots and the same `top` every list of commands gives
the same outputs and the same final stack, unspecified sums included. That `cmd_ready` is high after the fault is read
from R153 (log entry 4, DEDUCED). -/
def Obligations.AFaultLeavesNoTraceInLaterCommands : Prop :=
  (∀ (c : Command) (cs : List Command) (s : State), decode c = none →
    (commandRun (c :: cs) s).1 = ⟨false, 0, true, true⟩ :: (commandRun cs s).1 ∧
    (commandRun cs s).2.SameStack (commandRun (c :: cs) s).2) ∧
  (∀ (cs : List Command) (s t : State), s.SameStack t →
    (commandRun cs t).1 = (commandRun cs s).1 ∧ (commandRun cs s).2.SameStack (commandRun cs t).2)

/-- R156 and R141: the model's steps on a list of commands agree with the hardware's run when every command is legal,
and stop with the fault otherwise; the good runs are those of legal commands. That what the host presents is a list in
State is the model's form (log entry 2), and so is the hardware's continuation after a fault beside the step (log entry
7). -/
def Obligations.StepsRefineTheHardwareRun : Prop :=
  ∀ (cs : List Command) (s : State), s.inputs = [] →
    stepRun cs.length (s.present cs) =
      (if cs.all (fun c => (decode c).isSome) then .next (commandRun cs s).2 else .fault .illegalCommand) ∧
    (GoodRun cs s ↔ ∀ c ∈ cs, (decode c).isSome = true)

/-- The step of R152 (in the spec's derivation from R12 and R18): without reset, a hand-over on the rotated state is the
rotation of the hand-over, for the hardware and for the model's step; so the rotated states stay related. -/
def Obligations.RotationCommutesWithEveryStep : Prop :=
  (∀ (p : PortInput) (s : State) (k : StackIndex), p.rst = false →
    hardwareStep p (s.rotate k) = (hardwareStep p s).rotate k) ∧
  (∀ (s t : State) (k : StackIndex), (∀ p rest, s.inputs = p :: rest → p.rst = false) → step s = .next t →
    step (s.rotate k) = .next (t.rotate k))
end

