-- ==== Sys2Proof/Laws/State.lean ====
section
/-! SUPPORT. One lemma per field and update, all true by rfl; reads of a slot after a write; extensionality. -/

namespace Sys2Proof.Machine

@[simp] theorem setTop_slots (s : State) (v : StackIndex) : (s.setTop v).slots = s.slots := rfl
@[simp] theorem setTop_top (s : State) (v : StackIndex) : (s.setTop v).top = v := rfl
@[simp] theorem setTop_dout (s : State) (v : StackIndex) : (s.setTop v).dout = s.dout := rfl
@[simp] theorem setTop_doutValid (s : State) (v : StackIndex) : (s.setTop v).doutValid = s.doutValid := rfl
@[simp] theorem setTop_fault (s : State) (v : StackIndex) : (s.setTop v).fault = s.fault := rfl
@[simp] theorem setTop_inputs (s : State) (v : StackIndex) : (s.setTop v).inputs = s.inputs := rfl

@[simp] theorem writeSlot_slots (s : State) (p : StackIndex) (v : F80) : (s.writeSlot p v).slots = s.slots.set p.toNat v p.isLt := rfl
@[simp] theorem writeSlot_top (s : State) (p : StackIndex) (v : F80) : (s.writeSlot p v).top = s.top := rfl
@[simp] theorem writeSlot_dout (s : State) (p : StackIndex) (v : F80) : (s.writeSlot p v).dout = s.dout := rfl
@[simp] theorem writeSlot_doutValid (s : State) (p : StackIndex) (v : F80) : (s.writeSlot p v).doutValid = s.doutValid := rfl
@[simp] theorem writeSlot_fault (s : State) (p : StackIndex) (v : F80) : (s.writeSlot p v).fault = s.fault := rfl
@[simp] theorem writeSlot_inputs (s : State) (p : StackIndex) (v : F80) : (s.writeSlot p v).inputs = s.inputs := rfl

@[simp] theorem driveOutputs_slots (s : State) (d : F80) (v f : Bool) : (s.driveOutputs d v f).slots = s.slots := rfl
@[simp] theorem driveOutputs_top (s : State) (d : F80) (v f : Bool) : (s.driveOutputs d v f).top = s.top := rfl
@[simp] theorem driveOutputs_dout (s : State) (d : F80) (v f : Bool) : (s.driveOutputs d v f).dout = d := rfl
@[simp] theorem driveOutputs_doutValid (s : State) (d : F80) (v f : Bool) : (s.driveOutputs d v f).doutValid = v := rfl
@[simp] theorem driveOutputs_fault (s : State) (d : F80) (v f : Bool) : (s.driveOutputs d v f).fault = f := rfl
@[simp] theorem driveOutputs_inputs (s : State) (d : F80) (v f : Bool) : (s.driveOutputs d v f).inputs = s.inputs := rfl

@[simp] theorem setInputs_slots (s : State) (l : List PortInput) : (s.setInputs l).slots = s.slots := rfl
@[simp] theorem setInputs_top (s : State) (l : List PortInput) : (s.setInputs l).top = s.top := rfl
@[simp] theorem setInputs_dout (s : State) (l : List PortInput) : (s.setInputs l).dout = s.dout := rfl
@[simp] theorem setInputs_doutValid (s : State) (l : List PortInput) : (s.setInputs l).doutValid = s.doutValid := rfl
@[simp] theorem setInputs_fault (s : State) (l : List PortInput) : (s.setInputs l).fault = s.fault := rfl
@[simp] theorem setInputs_inputs (s : State) (l : List PortInput) : (s.setInputs l).inputs = l := rfl

@[simp] theorem resetCore_slots (s : State) : (s.resetCore).slots = Vector.replicate Config.stackDepth 0 := rfl
@[simp] theorem resetCore_top (s : State) : (s.resetCore).top = 0 := rfl
@[simp] theorem resetCore_dout (s : State) : (s.resetCore).dout = 0 := rfl
@[simp] theorem resetCore_doutValid (s : State) : (s.resetCore).doutValid = false := rfl
@[simp] theorem resetCore_fault (s : State) : (s.resetCore).fault = false := rfl
@[simp] theorem resetCore_inputs (s : State) : (s.resetCore).inputs = s.inputs := rfl

@[simp] theorem setTop_readSlot (s : State) (v q : StackIndex) : (s.setTop v).readSlot q = s.readSlot q := rfl
@[simp] theorem driveOutputs_readSlot (s : State) (d : F80) (v f : Bool) (q : StackIndex) :
    (s.driveOutputs d v f).readSlot q = s.readSlot q := rfl
@[simp] theorem setInputs_readSlot (s : State) (l : List PortInput) (q : StackIndex) :
    (s.setInputs l).readSlot q = s.readSlot q := rfl

/-- A read after a write: the written value at the written slot, the old one elsewhere. -/
@[simp] theorem writeSlot_readSlot (s : State) (p q : StackIndex) (v : F80) :
    (s.writeSlot p v).readSlot q = if q = p then v else s.readSlot q := by
  simp only [State.readSlot, State.writeSlot, Vector.getElem_set]
  by_cases h : p = q
  · simp [h]
  · have : p.toNat ≠ q.toNat := fun e => h (BitVec.eq_of_toNat_eq e)
    simp [this, Ne.symm h]

@[simp] theorem resetCore_readSlot (s : State) (q : StackIndex) : s.resetCore.readSlot q = 0 := by
  simp [State.readSlot]

@[simp] theorem reset_readSlot (q : StackIndex) : State.reset.readSlot q = 0 := by
  simp [State.readSlot, State.reset]

@[simp] theorem rotate_readSlot (s : State) (k q : StackIndex) : (s.rotate k).readSlot q = s.readSlot (q - k) := by
  simp [State.readSlot, State.rotate]

/-- Two states with the same slots and the same other fields are the same state. -/
theorem state_ext {s t : State} (hslot : ∀ p, t.readSlot p = s.readSlot p) (htop : t.top = s.top)
    (hdout : t.dout = s.dout) (hvalid : t.doutValid = s.doutValid) (hfault : t.fault = s.fault)
    (hinputs : t.inputs = s.inputs) : t = s := by
  have hs : t.slots = s.slots := by
    apply Vector.ext
    intro i hi
    have := hslot (BitVec.ofNat 3 i)
    simpa [State.readSlot, Nat.mod_eq_of_lt (show i < 8 from hi)] using this
  cases s
  cases t
  simp_all

end Sys2Proof.Machine
end

