-- ==== Sys2Proof/Laws/Ops.lean ====
section
/-! SUPPORT. What each shared operation does, said once: `st`, `push`, `pop`, the outputs, the adder's output and destination,
one hand-over and one step. -/

namespace Sys2Proof.Machine

theorem st_eq (s : State) (i : StackIndex) : s.st i = s.readSlot (s.top + i) := rfl

/-- `st(0)` is the slot `top` names (R12). -/
@[simp] theorem st_zero (s : State) : s.st 0#3 = s.readSlot s.top := by simp [st_eq]

/-- `push` (R13), on every slot and field. -/
theorem push_eq (s : State) (v : F80) : s.push v = (s.setTop (s.top - 1)).writeSlot (s.top - 1) v := by
  simp [State.push, State.setSt, State.stSlot]

/-- A push and a command's end without output is what `Pushed` says, whatever is pushed. -/
theorem push_noDataOut_pushed (s : State) (v : F80) : s.Pushed (s.push v).noDataOut v := by
  refine ⟨?_, ?_, ?_, ?_, ?_⟩ <;>
    simp +contextual [push_eq, State.noDataOut, State.SameSlotsBut, State.DrivesNothing]

/-- A pop and a command's end with output is what `PoppedWith` says, whatever is returned. -/
theorem pop_dataOut_popped {n : Nat} (s : State) (v : BitVec n) : s.PoppedWith (s.pop.2.dataOut v) v := by
  refine ⟨?_, ?_, ?_, ?_⟩ <;> simp [State.pop, State.dataOut, State.DrivesData]

@[simp] theorem operandF32_eq (v : F32) : operandF32 v = expandF32 v := rfl
@[simp] theorem operandF64_eq (v : F64) : operandF64 v = expandF64 v := rfl
@[simp] theorem operandF80_eq (v : F80) : operandF80 v = v := rfl

/-- The adder's output where the source defines it (R100 to R107). -/
theorem adderResult_of_some {a b r : F80} {sub : BitVec 1} (h : add80 a b sub = some r) : adderResult a b sub = r := by
  simp [adderResult, h]

/-- The adder's output where it does not (R110): the free value of the operands. -/
theorem adderResult_of_none {a b : F80} {sub : BitVec 1} (h : add80 a b sub = none) :
    adderResult a b sub = Config.freeValue a b sub := by
  simp [adderResult, h]

/-- Everything an add does (R127 to R132): it writes the adder's output to the destination slot. -/
theorem addInto_eq (s : State) (dst : StackIndex) (b : F80) :
    s.addInto dst b = s.writeSlot (s.top + dst) (adderResult (s.st dst) b 0) := rfl

/-- Everything one hand-over can do (R150, R153, R144). -/
theorem handOver_cases (p : PortInput) (s : State) :
    (p.rst = true ∧ handOver p s = .next s.resetCore) ∨
    (p.rst = false ∧ p.cmdValid = true ∧
      ((∃ i, decode p.command = some i ∧ handOver p s = exec i s) ∨
       (decode p.command = none ∧ handOver p s = .fault .illegalCommand))) ∨
    (p.rst = false ∧ p.cmdValid = false ∧ handOver p s = .next s) := by
  unfold handOver
  cases p.rst <;> cases p.cmdValid <;> simp [State.cmdReady]
  cases h : decode p.command <;> simp

/-- Everything one step can do when it answers a next state. -/
theorem step_next_cases {s t : State} (h : step s = .next t) :
    (s.inputs = [] ∧ t = s) ∨
    (∃ p rest, s.inputs = p :: rest ∧
      ((p.rst = true ∧ t = (s.setInputs rest).resetCore) ∨
       (p.rst = false ∧ p.cmdValid = true ∧
          ∃ i, decode p.command = some i ∧ exec i (s.setInputs rest) = .next t) ∨
       (p.rst = false ∧ p.cmdValid = false ∧ t = s.setInputs rest))) := by
  unfold step at h
  split at h
  case h_1 he => exact .inl ⟨he, by simpa using h.symm⟩
  case h_2 p rest he =>
    refine .inr ⟨p, rest, he, ?_⟩
    obtain ⟨hr, e⟩ | ⟨hr, hv, ⟨i, hi, e⟩ | ⟨hi, e⟩⟩ | ⟨hr, hv, e⟩ := handOver_cases p (s.setInputs rest)
    · exact .inl ⟨hr, by simpa [e] using h.symm⟩
    · exact .inr (.inl ⟨hr, hv, i, hi, by rw [← e]; exact h⟩)
    · simp [e] at h
    · exact .inr (.inr ⟨hr, hv, by simpa [e] using h.symm⟩)

end Sys2Proof.Machine
end

