-- ==== Sys2Proof/Laws/PerInstr.lean ====
section
/-! SUPPORT. Facts about every instruction as syntax, one lemma per constructor: the encoder's word is legal (R38),
and the table's row it selects carries the instruction's mnemonic (R39, R41). -/

namespace Sys2Proof.Laws.LegalWord

/-- The encoded word is legal, and the row of R39 it selects is the instruction's own. -/
def Statement (i : Instr) : Prop :=
  legalWord (encode i).cmd = true ∧ (selectRow (encode i).cmd).map OpcodeRow.mnemonic = some i.mnemonic

/-- The two facts are about the word alone. -/
theorem of_word {i : Instr} {w : BitVec 8} {m : String} (hw : (encode i).cmd = w) (hm : i.mnemonic = m)
    (h : legalWord w = true ∧ (selectRow w).map OpcodeRow.mnemonic = some m) : Statement i := by
  subst hw hm
  exact h

theorem loadF32 (v : F32) : Statement (.loadF32 v) :=
  of_word (w := 0x00) (m := "load_F32") rfl rfl (by decide)
theorem loadF64 (v : F64) : Statement (.loadF64 v) :=
  of_word (w := 0x08) (m := "load_F64") rfl rfl (by decide)
theorem loadF80 (v : F80) : Statement (.loadF80 v) :=
  of_word (w := 0x10) (m := "load_F80") rfl rfl (by decide)
theorem loadFromStack (i : StackIndex) : Statement (.loadFromStack i) := by
  revert i; unfold Statement; decide
theorem storeAndPopF32 : Statement .storeAndPopF32 :=
  of_word (w := 0x40) (m := "store_and_pop_F32") rfl rfl (by decide)
theorem storeAndPopF64 : Statement .storeAndPopF64 :=
  of_word (w := 0x48) (m := "store_and_pop_F64") rfl rfl (by decide)
theorem storeAndPopF80 : Statement .storeAndPopF80 :=
  of_word (w := 0x50) (m := "store_and_pop_F80") rfl rfl (by decide)
theorem addF32 (v : F32) : Statement (.addF32 v) :=
  of_word (w := 0x60) (m := "add_F32") rfl rfl (by decide)
theorem addF64 (v : F64) : Statement (.addF64 v) :=
  of_word (w := 0x68) (m := "add_F64") rfl rfl (by decide)
theorem addF80 (v : F80) : Statement (.addF80 v) :=
  of_word (w := 0x70) (m := "add_F80") rfl rfl (by decide)
theorem addStack (i : StackIndex) : Statement (.addStack i) := by
  revert i; unfold Statement; decide
theorem addPop (i : StackIndex) : Statement (.addPop i) := by
  revert i; unfold Statement; decide

end Sys2Proof.Laws.LegalWord
end

