-- ==== Sys2Proof/Tests/Slice0.lean ====
section
/-! SUPPORT. The model's own tests. Every expected value is the spec's: the encodings of R39, the examples of the
rules, and the vectors of 95_test_vectors.md. The theorems `test_witness_…` show, for each statement with hypotheses,
inputs that meet them together. -/

open Sys2Proof Sys2Proof.Machine

namespace Sys2Proof.Tests

/-! ### Helpers -/

/-- The state in which `top` is as given and the listed slots hold the listed patterns; all else as after reset. -/
def stackAt (top : StackIndex) (slots : List (StackIndex × F80)) : State :=
  slots.foldl (fun s p => s.writeSlot p.1 p.2) (State.reset.setTop top)

/-- The next state of an instruction, where there is one. -/
def ran (i : Instr) (s : State) : Option State :=
  match exec i s with
  | .next t => some t
  | .fault _ => none
  | .refused _ => none

/-- The next state of a step, where there is one. -/
def stepped (s : State) : Option State :=
  match step s with
  | .next t => some t
  | .fault _ => none
  | .refused _ => none

/-- `top` and one slot of the next state. -/
def look (p : StackIndex) (o : Option State) : Option (StackIndex × F80) := o.map fun t => (t.top, t.readSlot p)

/-- `top` and the data returned. -/
def seen (o : Option State) : Option (StackIndex × Bool × F80) := o.map fun t => (t.top, t.doutValid, t.dout)

/-! ### Well-formedness: what each check refuses -/

theorem test_word_reserved_op : reservedOp 0b11000000 = true ∧ legalWord 0b11000000 = false := by decide
theorem test_word_reserved_op_last : reservedOp 0b11111111 = true ∧ legalWord 0b11111111 = false := by decide
theorem test_word_reserved_fmt : reservedFmt 0b00011000 = true ∧ legalWord 0b00011000 = false := by decide
theorem test_word_stray_idx : strayIdx 0b01000001 = true ∧ legalWord 0b01000001 = false := by decide
theorem test_word_stray_fmt : strayFmt 0b10001000 = true ∧ legalWord 0b10001000 = false := by decide
theorem test_words_legal : [0b00000000#8, 0b00100111#8, 0b01010000#8, 0b01110000#8, 0b10000111#8,
    0b10100111#8].all legalWord = true := by decide
theorem test_words_legal_count : ((List.range 256).countP fun n => legalWord (BitVec.ofNat 8 n)) = 33 := by
  decide +kernel
theorem test_words_legal_decode : ((List.range 256).all fun n =>
    legalWord (BitVec.ofNat 8 n) == (decode ⟨BitVec.ofNat 8 n, 0⟩).isSome) = true := by decide +kernel
theorem test_asm_index_refused : (Asm.addPop (some 8)).wellFormed = false ∧ assemble (.addPop (some 8)) = none := by
  decide
theorem test_asm_pattern_refused : (Asm.loadF32 (.pattern 0x100000000)).wellFormed = false := by decide
theorem test_asm_text_refused : (Asm.loadF32 (.text ['0', '_', '7', 'f'])).wellFormed = false := by decide
theorem test_asm_accepted : assemble (.loadF32 (.pattern 0x3F800000)) = some (.loadF32 0x3F800000) ∧
    assemble (.loadF32 (.text "0_7f_400000".toList)) = some (.loadF32 0x3FC00000) ∧
    assemble (.loadFromStack (some 7)) = some (.loadFromStack 7) := by decide +kernel

/-! ### Decoding: the words of R39, bit by bit, each with its operand in place -/

theorem test_decode_load_F32 : decode ⟨0b00000000, 0xFFFF000000003F800000⟩ = some (.loadF32 0x3F800000) := by decide
theorem test_decode_load_F64 :
    decode ⟨0b00001000, 0xFFFF4000000000000000⟩ = some (.loadF64 0x4000000000000000) := by decide
theorem test_decode_load_F80 :
    decode ⟨0b00010000, 0x7FFF0000000000000001⟩ = some (.loadF80 0x7FFF0000000000000001) := by decide
theorem test_decode_load_from_stack : decode ⟨0b00100101, 0⟩ = some (.loadFromStack 5) := by decide
theorem test_decode_store_and_pop_F32 : decode ⟨0b01000000, 0⟩ = some .storeAndPopF32 := by decide
theorem test_decode_store_and_pop_F64 : decode ⟨0b01001000, 0⟩ = some .storeAndPopF64 := by decide
theorem test_decode_store_and_pop_F80 : decode ⟨0b01010000, 0⟩ = some .storeAndPopF80 := by decide
theorem test_decode_add_F32 : decode ⟨0b01100000, 0xFFFF00000000BF800000⟩ = some (.addF32 0xBF800000) := by decide
theorem test_decode_add_F64 :
    decode ⟨0b01101000, 0xFFFF3FD0000000000000⟩ = some (.addF64 0x3FD0000000000000) := by decide
theorem test_decode_add_F80 :
    decode ⟨0b01110000, 0x3FC08000000000000000⟩ = some (.addF80 0x3FC08000000000000000) := by decide
theorem test_decode_add_stack : decode ⟨0b10000001, 0⟩ = some (.addStack 1) := by decide
theorem test_decode_add_pop : decode ⟨0b10100110, 0⟩ = some (.addPop 6) := by decide
theorem test_encode_words :
    encode (.loadF64 0x4000000000000000) = ⟨0x08, 0x4000000000000000⟩ ∧ encode .storeAndPopF80 = ⟨0x50, 0⟩ ∧
      encode (.addPop 7) = ⟨0xA7, 0⟩ := by decide
theorem test_table_word : decodeTableWord 8 0xA3 = some (.addPop 3) ∧ decodeTableWord 8 0x10 = some (.loadF80 0) ∧
    decodeTableWord 8 0x18 = none := by decide
theorem test_fetch_word : seen (stepped (State.reset.withFetchWord 8 0x50)) = some (1, true, 0) ∧
    look 7 (stepped (State.reset.withFetchWord 8 0x00)) = some (7, 0) := by decide

/-! ### The commands: the examples of R120 to R131 -/

theorem test_load_F32 : look 7 (ran (.loadF32 0x3F800000) .reset) = some (7, 0x3FFF8000000000000000) := by decide
theorem test_load_F32_denormal :
    look 7 (ran (.loadF32 0x00012345) .reset) = some (7, 0x3F7A91A2800000000000) := by decide
theorem test_load_F64 :
    look 6 (ran (.loadF64 0x4000000000000000) (stackAt 7 [])) = some (6, 0x40008000000000000000) := by decide
theorem test_load_F80 :
    look 7 (ran (.loadF80 0x7FFF0000000000000001) .reset) = some (7, 0x7FFF0000000000000001) := by decide
theorem test_load_from_stack : look 6 (ran (.loadFromStack 0) (stackAt 7 [(7, 0x3FFFC000000000000000)])) =
    some (6, 0x3FFFC000000000000000) := by decide
theorem test_load_from_stack_seven : look 2 (ran (.loadFromStack 7) (stackAt 3 [(2, 0x40008000000000000000)])) =
    some (2, 0x40008000000000000000) := by decide
theorem test_store_and_pop_F32 : seen (ran .storeAndPopF32 (stackAt 7 [(7, 0x3FFEC000000000000000)])) =
    some (0, true, 0x3F400000) := by decide
theorem test_store_and_pop_F64 : seen (ran .storeAndPopF64 (stackAt 7 [(7, 0x4000C000000000000000)])) =
    some (0, true, 0x4008000000000000) := by decide
theorem test_store_and_pop_F80 : seen (ran .storeAndPopF80 (stackAt 6 [(6, 0x4000C000000000000000)])) =
    some (7, true, 0x4000C000000000000000) := by decide
theorem test_store_leaves_the_slot : look 7 (ran .storeAndPopF64 (stackAt 7 [(7, 0x3FFF8000000000000001)])) =
    some (0, 0x3FFF8000000000000001) := by decide
theorem test_add_F32 : look 7 (ran (.addF32 0xBF800000) (stackAt 7 [(7, 0x3FFFC000000000000000)])) =
    some (7, 0x3FFE8000000000000000) := by decide
theorem test_add_F64 : look 7 (ran (.addF64 0x3FD0000000000000) (stackAt 7 [(7, 0x3FFE8000000000000000)])) =
    some (7, 0x3FFEC000000000000000) := by decide
theorem test_add_F80 : look 7 (ran (.addF80 0x3FC08000000000000000) (stackAt 7 [(7, 0x3FFF8000000000000000)])) =
    some (7, 0x3FFF8000000000000001) := by decide
theorem test_add_F80_infinity : look 0 (ran (.addF80 0x7FFF8000000000000000) .reset) =
    some (0, Config.freeValue 0 0x7FFF8000000000000000 0) := by rfl
theorem test_add_stack : look 6 (ran (.addStack 1) (stackAt 6 [(6, 0x3FFFC000000000000000),
    (7, 0x3FFFC000000000000000)])) = some (6, 0x4000C000000000000000) := by decide
theorem test_add_pop : look 7 (ran (.addPop 1) (stackAt 6 [(6, 0x40008000000000000000),
    (7, 0x3FFF8000000000000000)])) = some (7, 0x4000C000000000000000) := by decide
theorem test_add_pop_first_operand_sign : look 7 (ran (.addPop 1) (stackAt 6 [(6, 0x3FFF8000000000000000),
    (7, 0xBFFF8000000000000000)])) = some (7, 0x80000000000000000000) := by decide

/-! ### The blocks: vectors of 95_test_vectors.md -/

theorem test_classify : classifyF32 0x7F800001 = .signallingNaN ∧ classifyF64 0x000FFFFFFFFFFFFF = .denormal ∧
    classifyF80 0x7FFFC000000000000000 = .quietNaN ∧ classifyF80 0x00008000000000000000 = .pseudoDenormal ∧
    classifyF80 0x3FFF4000000000000000 = .unnormal ∧ classifyF80 0x7FFF0000000000000001 = .pseudoNaN := by decide
theorem test_pack : unpackF32 0x3FC00000 = ⟨0, 0x7F, 0x400000⟩ ∧ unpackF64 0x8000000000000001 = ⟨1, 0, 1⟩ ∧
    unpackF80 0xBF69CC53702C050D3513 = ⟨1, 0x3F69, 0xCC53702C050D3513⟩ ∧
    packF80 ⟨0, 0x4000, 0xC000000000000000⟩ = 0x4000C000000000000000 ∧
    packF64 ⟨1, 0x400, 0⟩ = 0xC000000000000000 := by decide
theorem test_equal : equalBits (0x00000000 : F32) 0x80000000 = 0 ∧
    equalBits (0x7FC00000 : F32) 0x7FC00000 = 1 := by decide
theorem test_text : String.ofList (toTextF32 0x3FC00000) = "0_7f_400000" ∧
    String.ofList (toTextF80 0xBF69CC53702C050D3513) = "1_3f69_1_4c53702c050d3513" := by decide +kernel
theorem test_byte_image : byteImage 4 0x3F800001 = [0x01, 0x00, 0x80, 0x3F] := by decide
theorem test_expand : expandF32 0x7F800001 = 0x7FFFC000010000000000 ∧ expandF32 0x00000001 = 0x3F6A8000000000000000 ∧
    expandF64 0x000FFFFFFFFFFFFF = 0x3C00FFFFFFFFFFFFF000 ∧ expandF64 0x3FB999999999999A = 0x3FFBCCCCCCCCCCCCD000 := by
  decide +kernel
theorem test_compress_normal_tail : compressF64 0x3FFF8000000000000C00 = 0x3FF0000000000002 ∧
    compressF64 0x3FFF8000000000000400 = 0x3FF0000000000000 ∧ compressF32 0x3FFFFFFFFFFFFFFFFFFF = 0x40000000 ∧
    compressF32 0xC07EFFFFFF8000000000 = 0xFF800000 := by decide +kernel
theorem test_compress_denormal_tail : compressF64 0x3C00801CEEE9D3EC8801 = 0x000801CEEE9D3EC9 ∧
    compressF64 0x3BCC8000000000000000 = 0 ∧ compressF32 0xBF698000000000000001 = 0x80000001 ∧
    compressF64 0xBBCBFFFFFFFFFFFFFFFF = 0x8000000000000000 := by decide +kernel
theorem test_compress_special : compressF32 0x7FFF8000010000000000 = 0x7FC00001 ∧
    compressF64 0x7FFF0000000000000000 = 0x7FF0000000000000 ∧
    compressF64 0x3FFF4000000000000000 = 0x3FF8000000000000 := by decide +kernel
theorem test_add_dropped_bit :
    add80 0x3FFFFFFFFFFFFFFFFFFF 0x3FFF8000000000000000 0 = some 0x4000BFFFFFFFFFFFFFFF := by decide
theorem test_add_massive_cancellation :
    add80 0x3FFF8000000000000000 0xBFFEFFFFFFFFFFFFFFFF 0 = some 0x3FC08000000000000000 := by decide
theorem test_add_clamped_shift :
    add80 0x00028000000000000001 0x80028000000000000000 0 = some 0x00000000000000000004 := by decide
theorem test_add_overflow_has_no_result : add80 0x7FFEFFFFFFFFFFFFFFFF 0x7FFEFFFFFFFFFFFFFFFF 0 = none := by decide

/-! ### Witnesses of the statements' hypotheses -/

theorem test_witness_CommandWordsOfTheTableDecode :
    (0x18#8 ∉ [0x00#8, 0x08#8, 0x10#8, 0x40#8, 0x48#8, 0x50#8, 0x60#8, 0x68#8, 0x70#8] ∧
      0x18#8 &&& 0xF8 ∉ [0x20#8, 0x80#8, 0xA0#8]) ∧
    (0xFF#8 ∉ [0x00#8, 0x08#8, 0x10#8, 0x40#8, 0x48#8, 0x50#8, 0x60#8, 0x68#8, 0x70#8] ∧
      0xFF#8 &&& 0xF8 ∉ [0x20#8, 0x80#8, 0xA0#8]) := by decide
theorem test_witness_IllegalWordsFaultWithoutEffect :
    decode ⟨0xC0, 5⟩ = none ∧ (State.reset.present [⟨0xC0, 5⟩]).inputs = [⟨false, true, ⟨0xC0, 5⟩⟩] := by decide
theorem test_witness_DecodeOfEncodeGivesTheInstruction : (Instr.addPop 7).wellFormed = true := by decide
theorem test_witness_EncodeOfDecodeGivesTheCommand :
    let i : Instr := .loadF32 0x3F800000
    decode ⟨0x00, 0x3F800000⟩ = some i ∧
      (0xFFFF000000003F800000 : F80).toNat % 2 ^ dinBits i = (0x3F800000 : F80).toNat % 2 ^ dinBits i := by decide
theorem test_witness_AssemblerAcceptsWellFormedLines : 8 ≤ 8 ∧ 2 ^ 32 ≤ 0x100000000 ∧ 2 ^ 64 ≤ 0x10000000000000000 ∧
    2 ^ 80 ≤ 0x100000000000000000000 ∧ parseTextF32 "0_7f_400000".toList = some 0x3FC00000 ∧
    parseTextF64 "0_3ff_8000000000000".toList = some 0x3FF8000000000000 ∧
    parseTextF80 "0_3fff_1_0000000000000000".toList = some 0x3FFF8000000000000000 := by decide +kernel
theorem test_witness_StepRunsTheDecodedCommand :
    (State.reset.present [⟨0x81, 0⟩, ⟨0x50, 0⟩]).inputs = [⟨false, true, ⟨0x81, 0⟩⟩, ⟨false, true, ⟨0x50, 0⟩⟩] ∧
      decode ⟨0x81, 0⟩ = some (.addStack 1) ∧ (Instr.addStack 1).wellFormed = true := by decide
theorem test_witness_ResetStateIsAllZero :
    ((stackAt 3 [(3, 1)]).setInputs [.resetWith true ⟨0x50, 0⟩]).inputs = ⟨true, true, ⟨0x50, 0⟩⟩ :: [] := by decide
theorem test_witness_WithoutACommandTheCoreWaits : State.reset.inputs = [] ∧
    (State.reset.setInputs [⟨false, false, ⟨0x50, 0⟩⟩]).inputs = ⟨false, false, ⟨0x50, 0⟩⟩ :: [] := by decide
theorem test_witness_OnlyCommandsChangeTheStack :
    let s := State.reset.present [⟨0x10, 1⟩]
    ∃ t, step s = .next t ∧ (∀ p rest, s.inputs = p :: rest → p.rst = false) ∧
      t.readSlot 7 ≠ s.readSlot 7 ∧ t.top ≠ s.top :=
  ⟨_, rfl, fun p rest h => by cases h; rfl, by decide, by decide⟩
theorem test_witness_OnlyStoresDriveData :
    (∃ t, exec .storeAndPopF64 State.reset = .next t ∧ t.doutValid = true) ∧
    (∃ t, exec (.addPop 1) State.reset = .next t ∧ t.doutValid = false) := ⟨⟨_, rfl, rfl⟩, ⟨_, rfl, rfl⟩⟩
theorem test_witness_StepsKeepTheOutputsConsistent :
    (State.reset.present [⟨0x50, 0⟩]).OutputsConsistent ∧ ∃ t, step (State.reset.present [⟨0x50, 0⟩]) = .next t :=
  ⟨by unfold State.OutputsConsistent; decide, _, rfl⟩
/-- For `AddF32…`, `AddF64…`, `AddF80…`, `AddStack…` and `AddPop…`: a sum the adder defines. -/
theorem test_witness_AddsWithAResult :
    add80 0x3FFF8000000000000000 (expandF32 0x3F800000) 0 = some 0x40008000000000000000 ∧
    add80 0x3FFF8000000000000000 (expandF64 0x3FF0000000000000) 0 = some 0x40008000000000000000 ∧
    add80 0x3FFF8000000000000000 0x3FFF8000000000000000 0 = some 0x40008000000000000000 := by decide +kernel
theorem test_witness_AddStackAddsTheRegister :
    let s := stackAt 0 [(0, 0x7FFDFFFFFFFFFFFFFFFF)]
    classifyF80 (s.readSlot s.top) = .normal ∧ (unpackF80 (s.readSlot s.top)).e ≠ 0x7FFE := by decide
theorem test_witness_UnspecifiedSumReachesOnlyTheDestination :
    let s := stackAt 6 [(7, 0x7FFEFFFFFFFFFFFFFFFF), (6, 0x7FFEFFFFFFFFFFFFFFFF)]
    add80 (s.readSlot s.top) (expandF32 0x7F800000) 0 = none ∧
      add80 (s.readSlot s.top) (expandF64 0x7FF8000000000000) 0 = none ∧
      add80 (s.readSlot s.top) 0x7FFEFFFFFFFFFFFFFFFF 0 = none ∧
      add80 (s.readSlot s.top) (s.readSlot (s.top + 1)) 0 = none ∧
      add80 (s.readSlot (s.top + 1)) (s.readSlot s.top) 0 = none := by decide +kernel
theorem test_witness_LoadFromStackPushesTheOldRegister : (7 : BitVec 3) = 7 := by decide
theorem test_witness_EqualComparesBits : 0 < 32 ∧ 31 < 32 := by decide
theorem test_witness_ByteImageIsLittleEndian : 0 < 10 ∧ 9 < 10 := by decide
theorem test_witness_ExpandOfInfinityNaNAndZero : (1 : BitVec 23) ≠ 0 ∧ (1 : BitVec 52) ≠ 0 := by decide
theorem test_witness_ExpandOfNormals : ((1 : BitVec 8) ≠ 0 ∧ (1 : BitVec 8) ≠ 0xFF) ∧
    ((0xFE : BitVec 8) ≠ 0 ∧ (0xFE : BitVec 8) ≠ 0xFF) ∧ ((1 : BitVec 11) ≠ 0 ∧ (1 : BitVec 11) ≠ 0x7FF) ∧
    ((0x7FE : BitVec 11) ≠ 0 ∧ (0x7FE : BitVec 11) ≠ 0x7FF) := by decide
theorem test_witness_ExpandOfDenormalsInClosedForm :
    (2 ^ 0 ≤ (1 : BitVec 23).toNat ∧ (1 : BitVec 23).toNat < 2 ^ (0 + 1)) ∧
    (2 ^ 22 ≤ (0x7FFFFF : BitVec 23).toNat ∧ (0x7FFFFF : BitVec 23).toNat < 2 ^ (22 + 1)) ∧
    (2 ^ 0 ≤ (1 : BitVec 52).toNat ∧ (1 : BitVec 52).toNat < 2 ^ (0 + 1)) ∧
    (2 ^ 51 ≤ (0xFFFFFFFFFFFFF : BitVec 52).toNat ∧ (0xFFFFFFFFFFFFF : BitVec 52).toNat < 2 ^ (51 + 1)) := by decide
theorem test_witness_WideningIsExact : (∃ q, valueF32 0x00000001 = some q) ∧ (∃ q, valueF32 0x7F7FFFFF = some q) ∧
    (∃ q, valueF64 0x0000000000000001 = some q) ∧ (∃ q, valueF64 0x7FEFFFFFFFFFFFFF = some q) :=
  ⟨⟨_, rfl⟩, ⟨_, rfl⟩, ⟨_, rfl⟩, ⟨_, rfl⟩⟩
theorem test_witness_CompressOfInfinityAndNaN : (0x8000000000000000 : BitVec 64).extractLsb' 0 63 = 0 ∧
    (1 : BitVec 64).extractLsb' 0 63 ≠ 0 := by decide
theorem test_witness_CompressOverflowsAndFlushes :
    ((0x407F : BitVec 15) ≠ 0x7FFF ∧ (255 : Int) ≤ (0x407F : BitVec 15).toNat - 16383 + 127) ∧
    ((0x43FF : BitVec 15) ≠ 0x7FFF ∧ (2047 : Int) ≤ (0x43FF : BitVec 15).toNat - 16383 + 1023) ∧
    ((0x3F68 : BitVec 15) ≠ 0x7FFF ∧ ((0x3F68 : BitVec 15).toNat : Int) - 16383 + 127 < -23) ∧
    ((0x3BCB : BitVec 15) ≠ 0x7FFF ∧ ((0x3BCB : BitVec 15).toNat : Int) - 16383 + 1023 < -52) := by decide
theorem test_witness_CompressRoundsTheNormalTail :
    (0x3F81 ≤ (0x3F81 : BitVec 15).toNat ∧ (0x407E : BitVec 15).toNat ≤ 0x407E) ∧
    (0x3C01 ≤ (0x3C01 : BitVec 15).toNat ∧ (0x43FE : BitVec 15).toNat ≤ 0x43FE) := by decide
theorem test_witness_CompressRoundsTheDenormalTail :
    (0x3F69 ≤ (0x3F69 : BitVec 15).toNat ∧ (0x3F80 : BitVec 15).toNat ≤ 0x3F80) ∧
    (0x3BCC ≤ (0x3BCC : BitVec 15).toNat ∧ (0x3C00 : BitVec 15).toNat ≤ 0x3C00) := by decide
theorem test_witness_CompressKeepsTheSignAndNaNs :
    classifyF80 0xFFFFC000000000000000 = .quietNaN ∧ classifyF80 0x7FFF8000000000000001 = .signallingNaN ∧
    classifyF80 0x7FFF0000000000000001 = .pseudoNaN := by decide
theorem test_witness_CompressIgnoresTheIntegerBit : (0x3FFF : BitVec 15) ≠ 0x7FFF ∧
    (0x4000000000000000 : BitVec 64).extractLsb' 0 63 = (0xC000000000000000 : BitVec 64).extractLsb' 0 63 := by decide
/-- The magnitude from which F32 rounds to infinity is that of a canonical pattern, and the pattern below it rounds. -/
theorem test_witness_CompressF32IsCorrectlyRounded :
    ((classifyF80 0x407EFFFFFF8000000000).canonical = true ∧
      ∃ q, valueF80 0x407EFFFFFF8000000000 = some q ∧ 2 ^ 128 - 2 ^ 103 ≤ |q|) ∧
    ((classifyF80 0x3FFF8000000000000000).canonical = true ∧
      ∃ q, valueF80 0x3FFF8000000000000000 = some q ∧ |q| < 2 ^ 128 - 2 ^ 103) := by
  refine ⟨⟨by decide, _, rfl, ?_⟩, by decide, _, rfl, ?_⟩ <;> simp [signFactor, unpackF80] <;> norm_num
theorem test_witness_CompressF64IsCorrectlyRounded :
    ((classifyF80 0x43FEFFFFFFFFFFFFFC00).canonical = true ∧
      ∃ q, valueF80 0x43FEFFFFFFFFFFFFFC00 = some q ∧ 2 ^ 1024 - 2 ^ 970 ≤ |q|) ∧
    ((classifyF80 0x3FFF8000000000000000).canonical = true ∧
      ∃ q, valueF80 0x3FFF8000000000000000 = some q ∧ |q| < 2 ^ 1024 - 2 ^ 970) := by
  have h : (2 : ℚ) ^ 1024 = 2 ^ 970 * 2 ^ 54 := by rw [← pow_add]
  have h' : (2 : ℚ) ^ (1023 : ℤ) = 2 ^ 970 * 2 ^ 53 := by rw [← pow_add]; rfl
  have h1 : (1 : ℚ) ≤ 2 ^ 970 := one_le_pow₀ (by norm_num)
  refine ⟨⟨by decide, _, rfl, ?_⟩, by decide, _, rfl, ?_⟩
  · rw [h]; simp [signFactor, unpackF80, h']
    generalize (2 : ℚ) ^ 970 = z at *
    rw [abs_of_nonneg (by linarith)]; norm_num; linarith
  · rw [h]; simp [signFactor, unpackF80]
    generalize (2 : ℚ) ^ 970 = z at *
    clear h h'
    norm_num; linarith
theorem test_witness_AdderAddsAlignedMagnitudes :
    let A := unpackF80 0x7FFDFFFFFFFFFFFFFFFF
    let B := unpackF80 0x7FFCFFFFFFFFFFFFFFFF
    let C := unpackF80 0x00004000000000000000
    (A.e ≠ 0x7FFF ∧ B.e.toNat < A.e.toNat ∧ 0 ^^^ A.s ^^^ B.s = 0 ∧ A.e ≠ 0x7FFE ∧
      2 ^ 64 ≤ A.m.toNat + B.m.toNat / 2 ^ (A.e.toNat - B.e.toNat)) ∧
    (C.e ≠ 0x7FFF ∧ C.e = C.e ∧ C.m.toNat ≤ C.m.toNat ∧ 0 ^^^ C.s ^^^ C.s = 0 ∧
      C.m.toNat + C.m.toNat / 2 ^ (C.e.toNat - C.e.toNat) < 2 ^ 64) := by decide +kernel
theorem test_witness_AdderSubtractsAndNormalises :
    let A := unpackF80 0x00028000000000000001
    let B := unpackF80 0x80028000000000000000
    (A.e ≠ 0x7FFF ∧ B.e = A.e ∧ B.m.toNat ≤ A.m.toNat ∧ 0 ^^^ A.s ^^^ B.s = 1 ∧
      (2 ^ 64 + A.m.toNat - B.m.toNat / 2 ^ (A.e.toNat - B.e.toNat)) % 2 ^ 64 ≠ 0) ∧
    (1 ^^^ A.s ^^^ A.s = 1 ∧
      (2 ^ 64 + A.m.toNat - A.m.toNat / 2 ^ (A.e.toNat - A.e.toNat)) % 2 ^ 64 = 0) := by decide +kernel
theorem test_witness_AdderSwapsTheOperands :
    let A := unpackF80 0x40008000000000000000
    let B := unpackF80 0x3FFFFFFFFFFFFFFFFFFF
    let C := unpackF80 0x40008000000000000001
    B.e.toNat < A.e.toNat ∧ A.e = C.e ∧ A.m.toNat < C.m.toNat := by decide
theorem test_witness_ZeroIsNeutralForCanonicalOperands : classifyF80 0x00000000000000000001 = .denormal ∧
    classifyF80 0x7FFEFFFFFFFFFFFFFFFF = .normal ∧ classifyF80 0x80000000000000000000 = .zero := by decide
theorem test_witness_AdditionTruncatesTowardZero :
    let a : F80 := 0x3FFFFFFFFFFFFFFFFFFF
    let b : F80 := 0x3FFF8000000000000001
    classifyF80 a = .normal ∧ classifyF80 b = .normal ∧ (unpackF80 a).s = (unpackF80 b).s ∧
      add80 a b 0 = some 0x4000C000000000000000 ∧
      (∃ q, valueF80 a = some q) ∧ (∃ q, valueF80 b = some q) ∧ (∃ q, valueF80 0x4000C000000000000000 = some q) ∧
      2 ^ (0 : Nat) ∣ (unpackF80 a).m.toNat ∧ 2 ∣ (unpackF80 a).m.toNat + (unpackF80 b).m.toNat :=
  ⟨by decide, by decide, by decide, by decide, ⟨_, rfl⟩, ⟨_, rfl⟩, ⟨_, rfl⟩, by decide, by decide⟩
theorem test_witness_SubtractionErrsUpward :
    let a : F80 := 0x3FFF8000000000000000
    let b : F80 := 0xBFFEFFFFFFFFFFFFFFFE
    classifyF80 a = .normal ∧ classifyF80 b = .normal ∧ (unpackF80 a).s ≠ (unpackF80 b).s ∧
      add80 a b 0 = some 0x3FC08000000000000000 ∧ (unpackF80 0x3FC08000000000000000).e ≠ 0 ∧
      (∃ q, valueF80 a = some q) ∧ (∃ q, valueF80 b = some q) ∧ (∃ q, valueF80 0x3FC08000000000000000 = some q) ∧
      2 ^ (1 : Nat) ∣ (unpackF80 b).m.toNat :=
  ⟨by decide, by decide, by decide, by decide, by decide, ⟨_, rfl⟩, ⟨_, rfl⟩, ⟨_, rfl⟩, by decide⟩
theorem test_witness_NinthPushOverwritesTheOldest : (List.replicate 8 (1 : F80)).length = 8 := by decide
theorem test_witness_AFaultLeavesNoTraceInLaterCommands : decode ⟨0x18, 0⟩ = none ∧
    State.reset.SameStack (State.reset.driveOutputs 5 true false) ∧ State.reset.driveOutputs 5 true false ≠ .reset :=
  ⟨by decide, ⟨rfl, fun _ => rfl⟩, by decide⟩
theorem test_witness_StepsRefineTheHardwareRun : (stackAt 2 [(2, 1)]).inputs = [] := by decide
theorem test_witness_RotationCommutesWithEveryStep :
    let s := State.reset.present [⟨0xA7, 0⟩]
    (PortInput.ofCommand ⟨0xA7, 0⟩).rst = false ∧ (∀ p rest, s.inputs = p :: rest → p.rst = false) ∧
      ∃ t, step s = .next t := ⟨rfl, fun p rest h => by cases h; rfl, _, rfl⟩

end Sys2Proof.Tests
end

section
/-! ### The decoder: the table of R39 as a relation between words and rows -/

namespace Sys2Proof

/-- The rows of R39 do not overlap. -/
theorem opcodeTable_rows_disjoint (w : BitVec 8) :
    (opcodeTable.filter fun r => (w &&& r.mask) == r.pat).length ≤ 1 := by
  revert w; decide +kernel

/-- A word selects exactly the row it matches: the order of the table plays no part. -/
theorem selectRow_eq_some_iff {w : BitVec 8} {r : OpcodeRow} :
    selectRow w = some r ↔ r ∈ opcodeTable ∧ w &&& r.mask = r.pat := by
  constructor
  · intro h
    exact ⟨List.mem_of_find?_eq_some h, by simpa using List.find?_some h⟩
  · rintro ⟨hr, hw⟩
    have hmem : r ∈ opcodeTable.filter fun r => (w &&& r.mask) == r.pat := by simp [hr, hw]
    obtain ⟨x, hx⟩ := List.length_eq_one_iff.mp
      (le_antisymm (opcodeTable_rows_disjoint w) (List.length_pos_of_mem hmem))
    rw [hx, List.mem_singleton] at hmem
    rw [selectRow, ← List.head?_filter, hx, hmem, List.head?_cons]

theorem selectRow_eq_none_iff {w : BitVec 8} :
    selectRow w = none ↔ ∀ r ∈ opcodeTable, w &&& r.mask ≠ r.pat := by
  simp [selectRow, List.find?_eq_none]

/-- A word that is none of the nine fixed words of R39 and, its index masked off, none of the three indexed ones. -/
theorem selectRow_eq_none_of_not_listed {w : BitVec 8}
    (hfixed : w ∉ [0x00#8, 0x08#8, 0x10#8, 0x40#8, 0x48#8, 0x50#8, 0x60#8, 0x68#8, 0x70#8])
    (hindexed : w &&& 0xF8 ∉ [0x20#8, 0x80#8, 0xA0#8]) : selectRow w = none := by
  have hfull : w &&& 0xFF#8 = w := BitVec.and_allOnes
  simp only [List.mem_cons, List.not_mem_nil, or_false, not_or] at hfixed hindexed
  rw [selectRow_eq_none_iff]
  simpa [opcodeTable, hfull, hfixed] using hindexed

theorem decode_eq_none_iff_selectRow {c : Command} : decode c = none ↔ selectRow c.cmd = none := by
  simp [decode]

/-- A word that matches a row decodes to that row's command. -/
theorem decode_of_mem {w : BitVec 8} {r : OpcodeRow} (hr : r ∈ opcodeTable) (hw : w &&& r.mask = r.pat) (d : F80) :
    decode ⟨w, d⟩ = some (r.build (idxField w) d) := by
  simp [decode, selectRow_eq_some_iff.mpr ⟨hr, hw⟩]

/-- Row `k` of the table at its own pattern. -/
theorem decode_row (k : Nat) (hk : k < opcodeTable.length)
    (hpat : opcodeTable[k].pat &&& opcodeTable[k].mask = opcodeTable[k].pat) (d : F80) :
    decode ⟨opcodeTable[k].pat, d⟩ = some (opcodeTable[k].build (idxField opcodeTable[k].pat) d) :=
  decode_of_mem (List.getElem_mem hk) hpat d

/-- An index on the low three bits does not reach the bits that the mask keeps. -/
theorem indexedWord_and_mask {p : BitVec 8} (hp : p &&& 0xF8 = p) (i : StackIndex) :
    (p ||| i.setWidth 8) &&& 0xF8 = p := by
  revert p i; decide +kernel

/-- An index set into a pattern with clear low bits is the word's index field (R34, R37). -/
theorem idxField_indexedWord {p : BitVec 8} (hp : p &&& 0xF8 = p) (i : StackIndex) :
    idxField (p ||| i.setWidth 8) = i := by
  revert p i; decide +kernel

/-- Row `k` of the table, one that leaves the index free, at every index. -/
theorem decode_indexedRow (k : Nat) (hk : k < opcodeTable.length) (hmask : opcodeTable[k].mask = 0xF8)
    (hpat : opcodeTable[k].pat &&& 0xF8 = opcodeTable[k].pat) (i : StackIndex) (d : F80) :
    decode ⟨opcodeTable[k].pat ||| i.setWidth 8, d⟩ = some (opcodeTable[k].build i d) := by
  rw [decode_of_mem (List.getElem_mem hk) (by rw [hmask, indexedWord_and_mask hpat]), idxField_indexedWord hpat]

theorem dataIn_eq_extractLsb' {n : Nat} (hn : n ≤ 80) (d : F80) : dataIn n d = d.extractLsb' 0 n :=
  BitVec.setWidth_eq_extractLsb' hn

@[simp] theorem dataIn_80 (d : F80) : dataIn 80 d = d := BitVec.setWidth_eq d

/-! The twelve rows of R39, each with its operand (R21, R37). -/

theorem decode_loadF32 (d : F80) : decode ⟨0x00, d⟩ = some (.loadF32 (dataIn 32 d)) :=
  decode_row 0 (by decide) rfl d
theorem decode_loadF64 (d : F80) : decode ⟨0x08, d⟩ = some (.loadF64 (dataIn 64 d)) :=
  decode_row 1 (by decide) rfl d
theorem decode_loadF80 (d : F80) : decode ⟨0x10, d⟩ = some (.loadF80 d) := by
  rw [← dataIn_80 d]; exact decode_row 2 (by decide) rfl d
theorem decode_loadFromStack (i : StackIndex) (d : F80) :
    decode ⟨0x20 ||| i.setWidth 8, d⟩ = some (.loadFromStack i) :=
  decode_indexedRow 3 (by decide) rfl rfl i d
theorem decode_storeAndPopF32 (d : F80) : decode ⟨0x40, d⟩ = some .storeAndPopF32 :=
  decode_row 4 (by decide) rfl d
theorem decode_storeAndPopF64 (d : F80) : decode ⟨0x48, d⟩ = some .storeAndPopF64 :=
  decode_row 5 (by decide) rfl d
theorem decode_storeAndPopF80 (d : F80) : decode ⟨0x50, d⟩ = some .storeAndPopF80 :=
  decode_row 6 (by decide) rfl d
theorem decode_addF32 (d : F80) : decode ⟨0x60, d⟩ = some (.addF32 (dataIn 32 d)) :=
  decode_row 7 (by decide) rfl d
theorem decode_addF64 (d : F80) : decode ⟨0x68, d⟩ = some (.addF64 (dataIn 64 d)) :=
  decode_row 8 (by decide) rfl d
theorem decode_addF80 (d : F80) : decode ⟨0x70, d⟩ = some (.addF80 d) := by
  rw [← dataIn_80 d]; exact decode_row 9 (by decide) rfl d
theorem decode_addStack (i : StackIndex) (d : F80) : decode ⟨0x80 ||| i.setWidth 8, d⟩ = some (.addStack i) :=
  decode_indexedRow 10 (by decide) rfl rfl i d
theorem decode_addPop (i : StackIndex) (d : F80) : decode ⟨0xA0 ||| i.setWidth 8, d⟩ = some (.addPop i) :=
  decode_indexedRow 11 (by decide) rfl rfl i d

/-! Legal words (R38): the four conditions say exactly which words the table leaves out. -/

/-- R38 and R39 name the same words. -/
theorem isSome_selectRow (w : BitVec 8) : (selectRow w).isSome = legalWord w := by
  revert w; decide +kernel

theorem isSome_decode (c : Command) : (decode c).isSome = legalWord c.cmd := by
  simp [decode, isSome_selectRow]

theorem decode_eq_none_iff_legalWord {c : Command} : decode c = none ↔ legalWord c.cmd = false := by
  rw [← isSome_decode, Option.isSome_eq_false_iff, Option.isNone_iff_eq_none]

/-- The four conditions of R38, on the fields of the word. -/
theorem legalWord_eq_false_iff (w : BitVec 8) : legalWord w = false ↔
    (opField w = 0b110 ∨ opField w = 0b111) ∨
    ((opField w = 0b000 ∨ opField w = 0b010 ∨ opField w = 0b011) ∧ fmtField w = 0b11) ∨
    ((opField w = 0b000 ∨ opField w = 0b010 ∨ opField w = 0b011) ∧ idxField w ≠ 0b000) ∨
    ((opField w = 0b001 ∨ opField w = 0b100 ∨ opField w = 0b101) ∧ fmtField w ≠ 0b00) := by
  simp only [legalWord, reservedOp, reservedFmt, strayIdx, strayFmt, opUsesFmt, opUsesIdx, Bool.not_eq_false',
    Bool.or_eq_true, Bool.and_eq_true, beq_iff_eq, bne_iff_ne, or_assoc, BitVec.ofNat_eq_ofNat]

end Sys2Proof

/-! ### What an illegal command does -/

namespace Sys2Proof.Machine

theorem step_eq_handOver {s : State} {p : PortInput} {rest : List PortInput} (h : s.inputs = p :: rest) :
    step s = handOver p (s.setInputs rest) := by
  simp [step, h]

/-- A presented illegal word faults whatever the state (R144). -/
theorem handOver_illegal {c : Command} (hc : decode c = none) (s : State) :
    handOver (.ofCommand c) s = .fault .illegalCommand := by
  obtain ⟨hr, -⟩ | ⟨-, -, ⟨i, hi, -⟩ | ⟨-, e⟩⟩ | ⟨-, hv, -⟩ := handOver_cases (.ofCommand c) s
  · cases hr
  · cases hc.symm.trans hi
  · exact e
  · cases hv

theorem hardwareStep_illegal {c : Command} (hc : decode c = none) (s : State) :
    hardwareStep (.ofCommand c) s = s.raiseFault := by
  simp [hardwareStep, handOver_illegal hc]

/-- The fault is on the outputs alone (R141). -/
theorem raiseFault_sameStack (s : State) : s.SameStack s.raiseFault := by
  simp [State.SameStack, State.raiseFault]

/-! ### Packing and unpacking: three fields on end, at any widths -/

section Layout
variable {ew sw : Nat}

/-- The number of a packed word (R48). -/
theorem toNat_append_fields (s : BitVec 1) (e : BitVec ew) (m : BitVec sw) :
    (s ++ e ++ m).toNat = s.toNat * 2 ^ (ew + sw) + e.toNat * 2 ^ sw + m.toNat := by
  rw [BitVec.toNat_append, ← Nat.shiftLeft_add_eq_or_of_lt m.isLt, BitVec.toNat_append,
    ← Nat.shiftLeft_add_eq_or_of_lt e.isLt]
  simp only [Nat.shiftLeft_eq]
  ring

/-- The fields of a word put on end give the word back. -/
theorem append_extractLsb'_fields (b : BitVec (1 + ew + sw)) :
    b.extractLsb' (ew + sw) 1 ++ b.extractLsb' sw ew ++ b.extractLsb' 0 sw = b := by
  rw [BitVec.extractLsb'_append_extractLsb'_eq_extractLsb' (Nat.add_comm ew sw),
    BitVec.extractLsb'_append_extractLsb'_eq_extractLsb' (Nat.zero_add sw).symm, BitVec.extractLsb'_eq_self]

theorem extractLsb'_sign (s : BitVec 1) (e : BitVec ew) (m : BitVec sw) :
    (s ++ e ++ m).extractLsb' (ew + sw) 1 = s := by
  rw [BitVec.extractLsb'_append_eq_of_le (Nat.le_add_left sw ew), Nat.add_sub_cancel,
    BitVec.extractLsb'_append_eq_left]

theorem extractLsb'_exponent (s : BitVec 1) (e : BitVec ew) (m : BitVec sw) :
    (s ++ e ++ m).extractLsb' sw ew = e := by
  rw [BitVec.extractLsb'_append_eq_of_le le_rfl, Nat.sub_self, BitVec.extractLsb'_append_eq_right]

/-- Unpacking three fields put on end gives them back, at any widths. -/
theorem fields_extractLsb'_append (t : Fields ew sw) :
    (⟨(t.s ++ t.e ++ t.m).extractLsb' (ew + sw) 1, (t.s ++ t.e ++ t.m).extractLsb' sw ew,
      (t.s ++ t.e ++ t.m).extractLsb' 0 sw⟩ : Fields ew sw) = t := by
  rw [extractLsb'_sign, extractLsb'_exponent, BitVec.extractLsb'_append_eq_right]

/-- The top bit's number needs no remainder. -/
theorem toNat_extractLsb'_sign (b : BitVec (1 + ew + sw)) :
    (b.extractLsb' (ew + sw) 1).toNat = b.toNat / 2 ^ (ew + sw) := by
  have hlt : b.toNat / 2 ^ (ew + sw) < 2 ^ 1 :=
    Nat.div_lt_of_lt_mul (b.isLt.trans_eq (by ring))
  rw [BitVec.extractLsb'_toNat, Nat.shiftRight_eq_div_pow, Nat.mod_eq_of_lt hlt]

theorem toNat_extractLsb'_exponent (b : BitVec (1 + ew + sw)) :
    (b.extractLsb' sw ew).toNat = b.toNat / 2 ^ sw % 2 ^ ew := by
  rw [BitVec.extractLsb'_toNat, Nat.shiftRight_eq_div_pow]

theorem toNat_extractLsb'_significand (b : BitVec (1 + ew + sw)) :
    (b.extractLsb' 0 sw).toNat = b.toNat % 2 ^ sw := by
  rw [BitVec.extractLsb'_toNat, Nat.shiftRight_zero]

end Layout

@[simp] theorem packF32_unpackF32 (b : F32) : packF32 (unpackF32 b) = b :=
  append_extractLsb'_fields (ew := 8) (sw := 23) b
@[simp] theorem packF64_unpackF64 (b : F64) : packF64 (unpackF64 b) = b :=
  append_extractLsb'_fields (ew := 11) (sw := 52) b
@[simp] theorem packF80_unpackF80 (b : F80) : packF80 (unpackF80 b) = b :=
  append_extractLsb'_fields (ew := 15) (sw := 64) b
@[simp] theorem unpackF32_packF32 (t : Fields 8 23) : unpackF32 (packF32 t) = t := fields_extractLsb'_append t
@[simp] theorem unpackF64_packF64 (t : Fields 11 52) : unpackF64 (packF64 t) = t := fields_extractLsb'_append t
@[simp] theorem unpackF80_packF80 (t : Fields 15 64) : unpackF80 (packF80 t) = t := fields_extractLsb'_append t

/-! ### The encoding obligations -/

/-- Settles O1: row by row, each word of R39 matches its own row, and a word outside the list matches none. -/
theorem commandWordsOfTheTableDecode : Obligations.CommandWordsOfTheTableDecode := by
  have h32 (d : F80) := dataIn_eq_extractLsb' (n := 32) (by decide) d
  have h64 (d : F80) := dataIn_eq_extractLsb' (n := 64) (by decide) d
  refine ⟨fun d => h32 d ▸ decode_loadF32 d, fun d => h64 d ▸ decode_loadF64 d, decode_loadF80,
    fun d i => decode_loadFromStack i d, decode_storeAndPopF32, decode_storeAndPopF64, decode_storeAndPopF80,
    fun d => h32 d ▸ decode_addF32 d, fun d => h64 d ▸ decode_addF64 d, decode_addF80,
    fun d i => decode_addStack i d, fun d i => decode_addPop i d, fun w d hfixed hindexed => ?_⟩
  exact decode_eq_none_iff_selectRow.mpr (selectRow_eq_none_of_not_listed hfixed hindexed)

/-- Settles O2: the words the decoder refuses are those of R38's conditions, and a refused word raises the fault and
nothing else. -/
theorem illegalWordsFaultWithoutEffect : Obligations.IllegalWordsFaultWithoutEffect := by
  refine ⟨fun c => ?_, ?_, fun c s rest hc hin => ?_, fun c s hc => ?_⟩
  · exact decode_eq_none_iff_legalWord.trans (legalWord_eq_false_iff c.cmd)
  · simp only [isSome_decode]
    decide +kernel
  · rw [step_eq_handOver hin]
    exact handOver_illegal hc _
  · have ht : hardwareStep ⟨false, true, c⟩ s = s.raiseFault := hardwareStep_illegal hc s
    rw [ht]
    exact ⟨raiseFault_sameStack s, rfl, rfl, rfl⟩

/-- Settles O27: the layout at any widths, taken at the three formats. -/
theorem packAndUnpackAreInverse : Obligations.PackAndUnpackAreInverse := by
  refine ⟨fun b => ⟨?_, ?_, ?_⟩, fun b => ⟨?_, ?_, ?_⟩, fun b => ⟨?_, ?_, ?_⟩,
    fun t => ?_, fun t => ?_, fun t => ?_, packF32_unpackF32, unpackF32_packF32, packF64_unpackF64, unpackF64_packF64,
    packF80_unpackF80, unpackF80_packF80⟩
  · exact toNat_extractLsb'_sign (ew := 8) (sw := 23) b
  · exact toNat_extractLsb'_exponent (ew := 8) (sw := 23) b
  · exact toNat_extractLsb'_significand (ew := 8) (sw := 23) b
  · exact toNat_extractLsb'_sign (ew := 11) (sw := 52) b
  · exact toNat_extractLsb'_exponent (ew := 11) (sw := 52) b
  · exact toNat_extractLsb'_significand (ew := 11) (sw := 52) b
  · exact toNat_extractLsb'_sign (ew := 15) (sw := 64) b
  · exact toNat_extractLsb'_exponent (ew := 15) (sw := 64) b
  · exact toNat_extractLsb'_significand (ew := 15) (sw := 64) b
  · exact toNat_append_fields t.s t.e t.m
  · exact toNat_append_fields t.s t.e t.m
  · exact toNat_append_fields t.s t.e t.m

end Sys2Proof.Machine
end

section
/-! ### Classes and bit equality (R51 to R53) -/

namespace Sys2Proof.Machine

/-! The class of a narrow pattern: one equation per range of the exponent, then the rows of R51 read off them. -/

section Narrow
variable {ew sw : Nat}

/-- The largest exponent field is all ones. -/
theorem toNat_eq_expMax_iff {e : BitVec ew} : e.toNat = expMax ew ↔ e = BitVec.allOnes ew := by
  rw [← BitVec.toNat_inj, BitVec.toNat_allOnes, expMax]

theorem classifyNarrow_of_exponent_zero {t : Fields ew sw} (h : t.e = 0#ew) :
    classifyNarrow t = if t.m = 0#sw then .zero else .denormal := by
  simp [classifyNarrow, h]

theorem classifyNarrow_of_exponent_allOnes (hw : 0 < ew) {t : Fields ew sw} (h : t.e = BitVec.allOnes ew) :
    classifyNarrow t =
      if t.m = 0#sw then .infinity else if t.m.getLsbD (sw - 1) = true then .quietNaN else .signallingNaN := by
  simp [classifyNarrow, expMax, h, hw.ne']

theorem classifyNarrow_of_exponent_between {t : Fields ew sw} (h0 : t.e ≠ 0#ew) (h1 : t.e ≠ BitVec.allOnes ew) :
    classifyNarrow t = .normal := by
  simp [classifyNarrow, toNat_eq_expMax_iff, h0, h1]

/-- The rows of R51 at any widths: the three ranges of the exponent do not meet. -/
theorem classifyNarrow_table (hw : 0 < ew) (t : Fields ew sw) :
    (classifyNarrow t = .zero ↔ t.e = 0#ew ∧ t.m = 0#sw) ∧
    (classifyNarrow t = .denormal ↔ t.e = 0#ew ∧ t.m ≠ 0#sw) ∧
    (classifyNarrow t = .infinity ↔ t.e = BitVec.allOnes ew ∧ t.m = 0#sw) ∧
    (classifyNarrow t = .quietNaN ↔ t.e = BitVec.allOnes ew ∧ t.m ≠ 0#sw ∧ t.m.getLsbD (sw - 1) = true) ∧
    (classifyNarrow t = .signallingNaN ↔ t.e = BitVec.allOnes ew ∧ t.m ≠ 0#sw ∧ t.m.getLsbD (sw - 1) = false) ∧
    (classifyNarrow t = .normal ↔ t.e ≠ 0#ew ∧ t.e ≠ BitVec.allOnes ew) := by
  by_cases h0 : t.e = 0#ew
  · rw [classifyNarrow_of_exponent_zero h0, h0]
    by_cases hm : t.m = 0#sw <;> simp [hm, hw.ne']
  by_cases h1 : t.e = BitVec.allOnes ew
  · rw [classifyNarrow_of_exponent_allOnes hw h1, h1]
    by_cases hm : t.m = 0#sw
    · simp [hm, hw.ne']
    · cases hq : t.m.getLsbD (sw - 1) <;> simp [hm, hw.ne']
  · rw [classifyNarrow_of_exponent_between h0 h1]
    simp [h0, h1]

end Narrow

@[simp] theorem classifyF32_packF32 (t : Fields 8 23) : classifyF32 (packF32 t) = classifyNarrow t := by
  rw [classifyF32, unpackF32_packF32]

@[simp] theorem classifyF64_packF64 (t : Fields 11 52) : classifyF64 (packF64 t) = classifyNarrow t := by
  rw [classifyF64, unpackF64_packF64]

/-! The class of an F80 pattern: likewise, and the table's conditions on the fraction. -/

@[simp] theorem classifyF80_packF80 (t : Fields 15 64) : classifyF80 (packF80 t) = classifyFields80 t := by
  rw [classifyF80, unpackF80_packF80]

theorem classifyFields80_of_exponent_zero {t : Fields 15 64} (h : t.e = 0#15) :
    classifyFields80 t = if t.m = 0#64 then .zero else if intBit t.m then .pseudoDenormal else .denormal := by
  simp [classifyFields80, h]

theorem classifyFields80_of_exponent_max {t : Fields 15 64} (h : t.e = 0x7FFF#15) :
    classifyFields80 t =
      if t.m = 0x8000000000000000#64 then .infinity
      else if t.m = 0#64 then .pseudoInfinity
      else if intBit t.m then if t.m.getLsbD 62 then .quietNaN else .signallingNaN
      else .pseudoNaN := by
  simp [classifyFields80, h]

theorem classifyFields80_of_exponent_between {t : Fields 15 64} (h0 : t.e ≠ 0#15) (h1 : t.e ≠ 0x7FFF#15) :
    classifyFields80 t = if intBit t.m then .normal else .unnormal := by
  simp [classifyFields80, h0, h1]

/-- With a zero fraction only the integer bit is left, so such a significand is one of the two R52 lists by value. -/
theorem fraction_eq_zero_iff {m : BitVec 64} : fraction m = 0#63 ↔ m = 0x8000000000000000#64 ∨ m = 0#64 := by
  have hm := m.isLt
  simp only [fraction, ← BitVec.toNat_inj, BitVec.extractLsb'_toNat, Nat.shiftRight_zero, BitVec.toNat_ofNat]
  omega

/-- The rows of R52 on the fields; the zero fractions are the two significands listed by value. -/
theorem classifyFields80_table (t : Fields 15 64) :
    (classifyFields80 t = .zero ↔ t.e = 0#15 ∧ t.m = 0#64) ∧
    (classifyFields80 t = .denormal ↔ t.e = 0#15 ∧ t.m ≠ 0#64 ∧ intBit t.m = false) ∧
    (classifyFields80 t = .pseudoDenormal ↔ t.e = 0#15 ∧ intBit t.m = true) ∧
    (classifyFields80 t = .normal ↔ t.e ≠ 0#15 ∧ t.e ≠ 0x7FFF#15 ∧ intBit t.m = true) ∧
    (classifyFields80 t = .unnormal ↔ t.e ≠ 0#15 ∧ t.e ≠ 0x7FFF#15 ∧ intBit t.m = false) ∧
    (classifyFields80 t = .infinity ↔ t.e = 0x7FFF#15 ∧ t.m = 0x8000000000000000#64) ∧
    (classifyFields80 t = .pseudoInfinity ↔ t.e = 0x7FFF#15 ∧ t.m = 0#64) ∧
    (classifyFields80 t = .quietNaN ↔
      t.e = 0x7FFF#15 ∧ fraction t.m ≠ 0#63 ∧ intBit t.m = true ∧ t.m.getLsbD 62 = true) ∧
    (classifyFields80 t = .signallingNaN ↔
      t.e = 0x7FFF#15 ∧ fraction t.m ≠ 0#63 ∧ intBit t.m = true ∧ t.m.getLsbD 62 = false) ∧
    (classifyFields80 t = .pseudoNaN ↔ t.e = 0x7FFF#15 ∧ fraction t.m ≠ 0#63 ∧ intBit t.m = false) := by
  have hbit : intBit 0#64 = false := rfl
  simp only [ne_eq, fraction_eq_zero_iff]
  by_cases h0 : t.e = 0#15
  · rw [classifyFields80_of_exponent_zero h0, h0]
    by_cases hm : t.m = 0#64
    · simp [hm, hbit]
    · cases hb : intBit t.m <;> simp [hm]
  by_cases h1 : t.e = 0x7FFF#15
  · rw [classifyFields80_of_exponent_max h1, h1]
    by_cases hinf : t.m = 0x8000000000000000#64
    · simp [hinf]
    by_cases hm : t.m = 0#64
    · simp [hm]
    cases hb : intBit t.m
    · simp [hinf, hm]
    · cases hq : t.m.getLsbD 62 <;> simp [hinf, hm]
  · rw [classifyFields80_of_exponent_between h0 h1]
    cases hb : intBit t.m <;> simp [h0, h1]

/-- The canonical column of R52: all but the four classes where the integer bit disagrees with the exponent. -/
theorem canonical_eq_true_iff (c : F80Class) : c.canonical = true ↔
    c ≠ .pseudoDenormal ∧ c ≠ .unnormal ∧ c ≠ .pseudoInfinity ∧ c ≠ .pseudoNaN := by
  cases c <;> decide

/-! Equality of patterns. -/

theorem equalBits_eq_one_iff {w : Nat} {x y : BitVec w} : equalBits x y = 1 ↔ x = y := by
  by_cases h : x = y <;> simp [equalBits, h]

/-! ### The format obligations on classes and equality -/

/-- Settles O28: the rows of R51 at any widths, taken at the two narrow formats. -/
theorem narrowClassesFollowTheTable : Obligations.NarrowClassesFollowTheTable := by
  refine ⟨fun s e m => ?_, fun s e m => ?_⟩
  · rw [classifyF32_packF32]
    exact classifyNarrow_table (by decide) ⟨s, e, m⟩
  · rw [classifyF64_packF64]
    exact classifyNarrow_table (by decide) ⟨s, e, m⟩

/-- Settles O29: the rows of R52, and its canonical column class by class. -/
theorem f80ClassesFollowTheTable : Obligations.F80ClassesFollowTheTable := by
  intro s e m
  rw [classifyF80_packF80]
  obtain ⟨hzero, hdenormal, hpseudoDenormal, hnormal, hunnormal, hinfinity, hpseudoInfinity, hquiet, hsignalling,
    hpseudoNaN⟩ := classifyFields80_table ⟨s, e, m⟩
  exact ⟨hzero, hdenormal, hpseudoDenormal, hnormal, hunnormal, hinfinity, hpseudoInfinity, hquiet, hsignalling,
    hpseudoNaN, canonical_eq_true_iff _⟩

/-- Settles O30: equal patterns are those that agree at every bit. -/
theorem equalComparesBits : Obligations.EqualComparesBits := by
  intro w x y
  refine ⟨equalBits_eq_one_iff.trans BitVec.eq_of_getLsbD_eq_iff, ?_⟩
  by_cases h : x = y
  · exact .inl (if_pos h)
  · exact .inr (if_neg h)

end Sys2Proof.Machine
end

section
/-! ### Widening (R65 to R70) -/

namespace Sys2Proof.Machine

@[simp] theorem expandF32_packF32 (t : Fields 8 23) : expandF32 (packF32 t) = packF80 (expandFields t) := by
  rw [expandF32, unpackF32_packF32]

@[simp] theorem expandF64_packF64 (t : Fields 11 52) : expandF64 (packF64 t) = packF80 (expandFields t) := by
  rw [expandF64, unpackF64_packF64]

/-! The cases of R65 at any widths, all but the denormals: one equation each for R66, R67, R68 and R70. -/

section Narrow
variable {ew sw : Nat} {t : Fields ew sw}

theorem expandFields_of_infinity (he : t.e = BitVec.allOnes ew) (hm : t.m = 0) : expandFields t = infF80 t.s := by
  rw [expandFields, if_pos (toNat_eq_expMax_iff.mpr he), if_pos hm]

theorem expandFields_of_nan (he : t.e = BitVec.allOnes ew) (hm : t.m ≠ 0) :
    expandFields t = ⟨t.s, 0x7FFF, alignFraction t.m ||| 0xC000000000000000⟩ := by
  rw [expandFields, if_pos (toNat_eq_expMax_iff.mpr he), if_neg hm]

theorem expandFields_of_zero (hw : 0 < ew) (he : t.e = 0) (hm : t.m = 0) :
    expandFields t = zeroFields 15 64 t.s := by
  have h1 : t.e ≠ BitVec.allOnes ew := by simp [he, hw.ne']
  rw [expandFields, if_neg (mt toNat_eq_expMax_iff.mp h1), if_pos he, if_pos hm]

/-- R70's rebase by a constant: taking off the narrow bias and adding F80's is adding their difference in 15 bits. -/
theorem ofInt_rebase (hb : bias ew ≤ 16383) (e : BitVec ew) :
    BitVec.ofInt 15 ((e.toNat : Int) - bias ew + 16383) = e.setWidth 15 + BitVec.ofNat 15 (16383 - bias ew) := by
  have hnat : (e.toNat : Int) - bias ew + 16383 = (e.toNat + (16383 - bias ew) : Nat) := by omega
  rw [hnat, BitVec.ofInt_natCast, BitVec.ofNat_add, BitVec.ofNat_toNat]

theorem expandFields_of_normal (hb : bias ew ≤ 16383) (h0 : t.e ≠ 0) (h1 : t.e ≠ BitVec.allOnes ew) :
    expandFields t =
      ⟨t.s, t.e.setWidth 15 + BitVec.ofNat 15 (16383 - bias ew), 0x8000000000000000 ||| alignFraction t.m⟩ := by
  rw [expandFields, if_neg (mt toNat_eq_expMax_iff.mp h1), if_neg h0, ofInt_rebase hb]

end Narrow

/-! ### The widening obligations -/

/-- Settles O34: the normal case at any widths, taken at the two narrow formats. -/
theorem expandOfNormals : Obligations.ExpandOfNormals := by
  refine ⟨fun s e m h0 h1 => ?_, fun s e m h0 h1 => ?_⟩
  · rw [expandF32_packF32, expandFields_of_normal (by decide) h0 h1]
    rfl
  · rw [expandF64_packF64, expandFields_of_normal (by decide) h0 h1]
    rfl

/-- Settles O33: the cases of infinity, NaN and zero at any widths, taken at the two narrow formats. -/
theorem expandOfInfinityNaNAndZero : Obligations.ExpandOfInfinityNaNAndZero := by
  refine fun s => ⟨?_, ?_, fun m hm => ?_, fun m hm => ?_, ?_, ?_⟩
  · rw [expandF32_packF32, expandFields_of_infinity rfl rfl, infF80]
  · rw [expandF64_packF64, expandFields_of_infinity rfl rfl, infF80]
  · rw [expandF32_packF32, expandFields_of_nan rfl hm]
    rfl
  · rw [expandF64_packF64, expandFields_of_nan rfl hm]
    rfl
  · rw [expandF32_packF32, expandFields_of_zero (by decide) rfl rfl, zeroFields]
  · rw [expandF64_packF64, expandFields_of_zero (by decide) rfl rfl, zeroFields]

end Sys2Proof.Machine
end

section
/-! ### Narrowing (R80 to R85) -/

namespace Sys2Proof.Machine

@[simp] theorem compressF32_packF80 (t : Fields 15 64) :
    compressF32 (packF80 t) = packF32 (compressFields 8 23 t) := by
  rw [compressF32, unpackF80_packF80]

@[simp] theorem compressF64_packF80 (t : Fields 15 64) :
    compressF64 (packF80 t) = packF64 (compressFields 11 52 t) := by
  rw [compressF64, unpackF80_packF80]

/-! The cases of R80 that do not round, at any widths: one equation each for R81, R82, R84 and R85. -/

section Cases
variable {ew sw : Nat} {t : Fields 15 64}

theorem compressFields_of_infinity (he : t.e = 0x7FFF) (hm : fraction t.m = 0) :
    compressFields ew sw t = infNarrow ew sw t.s := by
  rw [compressFields, if_pos he, if_pos hm]

theorem compressFields_of_nan (he : t.e = 0x7FFF) (hm : fraction t.m ≠ 0) :
    compressFields ew sw t = ⟨t.s, BitVec.ofNat ew (expMax ew), nanPayload sw t.m⟩ := by
  rw [compressFields, if_pos he, if_neg hm]

theorem compressFields_of_overflow (he : t.e ≠ 0x7FFF) (h : (expMax ew : Int) ≤ rebase ew t.e) :
    compressFields ew sw t = infNarrow ew sw t.s := by
  simp only [compressFields, if_neg he, if_pos h]

/-- R85 is the third test of R80: an exponent below `-sw` is negative, so it is no overflow (R84) and not in the normal
tail (R87). -/
theorem compressFields_of_flush (he : t.e ≠ 0x7FFF) (h : rebase ew t.e < -(sw : Int)) :
    compressFields ew sw t = zeroFields ew sw t.s := by
  have hover : ¬ (expMax ew : Int) ≤ rebase ew t.e := by omega
  have htail : rebase ew t.e ≤ 0 := by omega
  simp only [compressFields, if_neg he, if_neg hover, if_pos htail, if_pos h]

end Cases

/-! The payload of a NaN, bit by bit (R82). -/

theorem getLsbD_withoutIntBit (m : BitVec 64) (i : Nat) :
    (withoutIntBit m).getLsbD i = (m.getLsbD i && decide (i < 63)) := by
  have hmask : (0x7FFFFFFFFFFFFFFF : BitVec 64) = (BitVec.allOnes 63).setWidth 64 := rfl
  rw [withoutIntBit, hmask, BitVec.getLsbD_and, BitVec.getLsbD_setWidth, BitVec.getLsbD_allOnes]
  by_cases hi : i < 63
  · simp [hi, Nat.lt_succ_of_lt hi]
  · simp [hi]

/-- Above the `n` fraction bits that are kept stands the quiet bit, set; the integer bit is gone (R82). -/
theorem nanPayload_eq_append {n : Nat} (hn : n ≤ 62) (m : BitVec 64) :
    nanPayload (1 + n) m = 1#1 ++ m.extractLsb' (62 - n) n := by
  have hquiet : (0x4000000000000000 : BitVec 64) = BitVec.twoPow 64 62 := rfl
  have hshift : narrowShift (1 + n) = 62 - n := by rw [narrowShift]; omega
  refine BitVec.eq_of_getLsbD_eq fun i hi => ?_
  rw [nanPayload, hquiet, hshift, BitVec.getLsbD_setWidth, BitVec.getLsbD_ushiftRight, BitVec.getLsbD_or,
    getLsbD_withoutIntBit, BitVec.getLsbD_twoPow, BitVec.getLsbD_append]
  obtain hlow | rfl : i < n ∨ i = n := by omega
  · have hpos : 62 - n + i < 62 := by omega
    simp [hi, hlow, hpos.ne', Nat.lt_succ_of_lt hpos]
  · simp [hn]

/-! ### The narrowing obligations -/

/-- Settles O38: the cases of infinity and NaN at any widths, taken at the two narrow formats. -/
theorem compressOfInfinityAndNaN : Obligations.CompressOfInfinityAndNaN := by
  refine fun s m => ⟨fun hm => ⟨?_, ?_⟩, fun hm => ⟨?_, ?_⟩⟩
  · rw [compressF32_packF80, compressFields_of_infinity (t := ⟨s, 0x7FFF, m⟩) rfl hm]
    rfl
  · rw [compressF64_packF80, compressFields_of_infinity (t := ⟨s, 0x7FFF, m⟩) rfl hm]
    rfl
  · rw [compressF32_packF80, compressFields_of_nan (t := ⟨s, 0x7FFF, m⟩) rfl hm,
      nanPayload_eq_append (n := 22) (by decide)]
    rfl
  · rw [compressF64_packF80, compressFields_of_nan (t := ⟨s, 0x7FFF, m⟩) rfl hm,
      nanPayload_eq_append (n := 51) (by decide)]
    rfl

/-- Settles O39: the cases of overflow and flush at any widths, taken at the two narrow formats. -/
theorem compressOverflowsAndFlushes : Obligations.CompressOverflowsAndFlushes := by
  refine fun s e m he => ⟨fun h => ?_, fun h => ?_, fun h => ?_, fun h => ?_⟩
  · rw [compressF32_packF80, compressFields_of_overflow (ew := 8) (t := ⟨s, e, m⟩) he h]
    rfl
  · rw [compressF64_packF80, compressFields_of_overflow (ew := 11) (t := ⟨s, e, m⟩) he h]
    rfl
  · rw [compressF32_packF80, compressFields_of_flush (ew := 8) (sw := 23) (t := ⟨s, e, m⟩) he h, zeroFields]
  · rw [compressF64_packF80, compressFields_of_flush (ew := 11) (sw := 52) (t := ⟨s, e, m⟩) he h, zeroFields]

end Sys2Proof.Machine
end

section
/-! ### What each command does (R120 to R131), and the shared operations it is built from -/

namespace Sys2Proof.Machine

/-! One equation per command, with `st(i)` written as the slot it names (R12). -/

theorem exec_loadF32 (v : F32) (s : State) : exec (.loadF32 v) s = .next (s.push (expandF32 v)).noDataOut := rfl
theorem exec_loadF64 (v : F64) (s : State) : exec (.loadF64 v) s = .next (s.push (expandF64 v)).noDataOut := rfl
theorem exec_loadF80 (v : F80) (s : State) : exec (.loadF80 v) s = .next (s.push v).noDataOut := rfl
theorem exec_loadFromStack (i : StackIndex) (s : State) :
    exec (.loadFromStack i) s = .next (s.push (s.readSlot (s.top + i))).noDataOut := rfl
theorem exec_storeAndPopF32 (s : State) :
    exec .storeAndPopF32 s = .next (s.pop.2.dataOut (compressF32 (s.readSlot s.top))) := by
  rw [← st_zero]; rfl
theorem exec_storeAndPopF64 (s : State) :
    exec .storeAndPopF64 s = .next (s.pop.2.dataOut (compressF64 (s.readSlot s.top))) := by
  rw [← st_zero]; rfl
theorem exec_storeAndPopF80 (s : State) :
    exec .storeAndPopF80 s = .next (s.pop.2.dataOut (s.readSlot s.top)) := by
  rw [← st_zero]; rfl
theorem exec_addF32 (v : F32) (s : State) :
    exec (.addF32 v) s = .next (s.addInto 0 (expandF32 v)).noDataOut := rfl
theorem exec_addF64 (v : F64) (s : State) :
    exec (.addF64 v) s = .next (s.addInto 0 (expandF64 v)).noDataOut := rfl
theorem exec_addF80 (v : F80) (s : State) : exec (.addF80 v) s = .next (s.addInto 0 v).noDataOut := rfl
theorem exec_addStack (i : StackIndex) (s : State) :
    exec (.addStack i) s = .next (s.addInto 0 (s.readSlot (s.top + i))).noDataOut := rfl
theorem exec_addPop (i : StackIndex) (s : State) :
    exec (.addPop i) s = .next (s.addInto i (s.readSlot s.top)).pop.2.noDataOut := by
  rw [← st_zero]; rfl

/-! The narrow data operand as a bit range of `din` (R21). -/

theorem decode_loadF32_low (d : F80) : decode ⟨0x00, d⟩ = some (.loadF32 (d.extractLsb' 0 32)) :=
  dataIn_eq_extractLsb' (n := 32) (by decide) d ▸ decode_loadF32 d
theorem decode_loadF64_low (d : F80) : decode ⟨0x08, d⟩ = some (.loadF64 (d.extractLsb' 0 64)) :=
  dataIn_eq_extractLsb' (n := 64) (by decide) d ▸ decode_loadF64 d
theorem decode_addF32_low (d : F80) : decode ⟨0x60, d⟩ = some (.addF32 (d.extractLsb' 0 32)) :=
  dataIn_eq_extractLsb' (n := 32) (by decide) d ▸ decode_addF32 d
theorem decode_addF64_low (d : F80) : decode ⟨0x68, d⟩ = some (.addF64 (d.extractLsb' 0 64)) :=
  dataIn_eq_extractLsb' (n := 64) (by decide) d ▸ decode_addF64 d

/-! Pushing a copy of a register (R123). -/

section Copy
variable {s t : State}

/-- The slot a pushed value was copied from keeps that value, even when it is the slot the push writes. -/
theorem readSlot_source_of_pushed {q : StackIndex} (h : s.Pushed t (s.readSlot q)) : t.readSlot q = s.readSlot q := by
  obtain ⟨-, hnew, hframe, -, -⟩ := h
  by_cases hq : q = s.top - 1
  · rw [hq, hnew, hq]
  · exact hframe q hq

/-- After the push the source has the next higher index. -/
theorem st_succ_of_pushed {i : StackIndex} (h : s.Pushed t (s.readSlot (s.top + i))) :
    t.st (i + 1) = s.readSlot (s.top + i) := by
  have hslot : t.top + (i + 1) = s.top + i := by
    obtain ⟨htop, -⟩ := h
    rw [htop]; ring
  rw [st_eq, hslot, readSlot_source_of_pushed h]

/-- With `i = 7` the push writes `st(7)` onto itself. -/
theorem readSlot_of_pushed_st_seven (h : s.Pushed t (s.readSlot (s.top + 7))) (q : StackIndex) :
    t.readSlot q = s.readSlot q := by
  have hsource := readSlot_source_of_pushed h
  obtain ⟨-, -, hframe, -, -⟩ := h
  have hwritten : s.top - 1 = s.top + 7 := BitVec.sub_eq_add_neg s.top 1
  by_cases hq : q = s.top + 7
  · rw [hq, hsource]
  · exact hframe q (hwritten ▸ hq)

end Copy

/-! Adding into a register (R127 to R131). -/

/-- An add and a command's end without output is what `SlotReceivesSum` says, at any destination. -/
theorem addInto_noDataOut_receivesSum (s : State) (dst : StackIndex) (b : F80) :
    s.SlotReceivesSum (s.addInto dst b).noDataOut (s.top + dst) (add80 (s.readSlot (s.top + dst)) b 0) := by
  refine ⟨fun r hr => ?_, fun q hq => ?_, ⟨rfl, rfl, rfl⟩, rfl⟩
  · simpa [addInto_eq, State.noDataOut, st_eq] using adderResult_of_some hr
  · simp [addInto_eq, State.noDataOut, hq]

/-- With `st(0)` as the destination (R127 to R130). -/
theorem addInto_zero_noDataOut_receivesSum (s : State) (b : F80) :
    s.SlotReceivesSum (s.addInto 0 b).noDataOut s.top (add80 (s.readSlot s.top) b 0) := by
  simpa using addInto_noDataOut_receivesSum s 0 b

/-- A pop between the add and the command's end moves `top` alone (R131). -/
theorem addInto_pop_noDataOut_receivesSum (s : State) (dst : StackIndex) (b : F80) :
    s.SlotReceivesSum (s.addInto dst b).pop.2.noDataOut (s.top + dst) (add80 (s.readSlot (s.top + dst)) b 0) :=
  addInto_noDataOut_receivesSum s dst b

/-! Doubling (R103 to R105 on equal operands). -/

/-- Effective addition with a carry out of the significand (R105), below the largest exponent (R110 ii). -/
theorem addMagnitudes_of_carry {sign : BitVec 1} {exp big aligned : Nat} (hcarry : 2 ^ 64 ≤ big + aligned)
    (hexp : exp + 1 ≠ 0x7FFF) : addMagnitudes sign exp big aligned =
      some ⟨sign, BitVec.ofNat 15 (exp + 1), BitVec.ofNat 64 ((big + aligned) >>> 1 ||| 2 ^ 63)⟩ := by
  simp only [addMagnitudes, if_pos hcarry, if_neg hexp]

/-- Equal operands are not swapped and need no alignment (R103, R104). -/
theorem addFields_self {t : Fields 15 64} (he : t.e ≠ 0x7FFF) :
    addFields t t 0 = addMagnitudes t.s t.e.toNat t.m.toNat t.m.toNat := by
  have hsub : effectiveSub t t 0 = 0 := by simp [effectiveSub]
  have hkeep : swapOperands t t = false := by simp [swapOperands]
  rw [addFields, if_neg (not_or.mpr ⟨he, he⟩), if_pos hsub, orderOperands, hkeep]
  simp [OrderedOperands.aligned]

theorem two_pow_le_toNat_of_intBit {m : BitVec 64} (h : intBit m = true) : 2 ^ 63 ≤ m.toNat :=
  BitVec.toNat_ge_of_msb_true ((BitVec.msb_eq_getLsbD_last m).trans h)

/-- Setting the integer bit of a significand that has it changes nothing. -/
theorem toNat_or_intBit {m : BitVec 64} (h : intBit m = true) : m.toNat ||| 2 ^ 63 = m.toNat := by
  refine Nat.eq_of_testBit_eq fun i => ?_
  rw [Nat.testBit_or, Nat.testBit_two_pow]
  obtain rfl | hi := eq_or_ne 63 i
  · simpa [intBit, BitVec.getLsbD] using h
  · simp [hi]

/-- Doubled, a significand with its integer bit carries once: it comes back, with the exponent one higher. -/
theorem addFields_self_of_intBit {t : Fields 15 64} (hint : intBit t.m = true) (hmax : t.e ≠ 0x7FFF)
    (hlast : t.e ≠ 0x7FFE) : addFields t t 0 = some { t with e := t.e + 1 } := by
  have hcarry : 2 ^ 64 ≤ t.m.toNat + t.m.toNat := by
    have := two_pow_le_toNat_of_intBit hint
    omega
  have hexp : t.e.toNat + 1 ≠ 0x7FFF := fun h =>
    hlast (BitVec.eq_of_toNat_eq (Nat.add_right_cancel h))
  have hhalf : (t.m.toNat + t.m.toNat) >>> 1 = t.m.toNat := by omega
  rw [addFields_self hmax, addMagnitudes_of_carry hcarry hexp, hhalf, toNat_or_intBit hint]
  simp [BitVec.ofNat_add]

/-- The double of a canonical normal below the largest exponent (R130). -/
theorem add80_self_of_normal {a : F80} (ha : classifyF80 a = .normal) (hlast : (unpackF80 a).e ≠ 0x7FFE) :
    add80 a a 0 = some (packF80 { unpackF80 a with e := (unpackF80 a).e + 1 }) := by
  obtain ⟨-, -, -, hnormal, -⟩ := classifyFields80_table (unpackF80 a)
  obtain ⟨-, hmax, hint⟩ := hnormal.mp ha
  rw [add80, addFields_self_of_intBit hint hmax hlast, Option.map_some]

/-! ### The obligations on the commands -/

/-- Settles O14: `push_noDataOut_pushed` at the expanded operand. -/
theorem loadF32PushesTheExpandedOperand : Obligations.LoadF32PushesTheExpandedOperand :=
  fun d s => ⟨decode_loadF32_low d, _, exec_loadF32 _ s, push_noDataOut_pushed s _⟩

/-- Settles O15: `push_noDataOut_pushed` at the expanded operand. -/
theorem loadF64PushesTheExpandedOperand : Obligations.LoadF64PushesTheExpandedOperand :=
  fun d s => ⟨decode_loadF64_low d, _, exec_loadF64 _ s, push_noDataOut_pushed s _⟩

/-- Settles O16: `push_noDataOut_pushed` at the operand itself. -/
theorem loadF80PushesTheOperandBitForBit : Obligations.LoadF80PushesTheOperandBitForBit :=
  fun d s => ⟨decode_loadF80 d, _, exec_loadF80 d s, push_noDataOut_pushed s d⟩

/-- Settles O17: the pushed value is a copy of `st(i)`, so its source is left as it was. -/
theorem loadFromStackPushesTheOldRegister : Obligations.LoadFromStackPushesTheOldRegister := by
  refine ⟨rfl, fun i d s => ⟨decode_loadFromStack i d, _, exec_loadFromStack i s, ?_⟩⟩
  have hpush := push_noDataOut_pushed s (s.readSlot (s.top + i))
  refine ⟨hpush, st_succ_of_pushed hpush, ?_⟩
  rintro rfl
  exact readSlot_of_pushed_st_seven hpush

/-- Settles O18: `pop_dataOut_popped` at the old `st(0)`. -/
theorem storeAndPopF80ReturnsTheTopUnchanged : Obligations.StoreAndPopF80ReturnsTheTopUnchanged :=
  fun d s => ⟨decode_storeAndPopF80 d, _, exec_storeAndPopF80 s, pop_dataOut_popped s _⟩

/-- Settles O19: `pop_dataOut_popped` at the compressed `st(0)`. -/
theorem storeAndPopF64ReturnsTheCompressedTop : Obligations.StoreAndPopF64ReturnsTheCompressedTop :=
  fun d s => ⟨decode_storeAndPopF64 d, _, exec_storeAndPopF64 s, pop_dataOut_popped s _⟩

/-- Settles O20: `pop_dataOut_popped` at the compressed `st(0)`. -/
theorem storeAndPopF32ReturnsTheCompressedTop : Obligations.StoreAndPopF32ReturnsTheCompressedTop :=
  fun d s => ⟨decode_storeAndPopF32 d, _, exec_storeAndPopF32 s, pop_dataOut_popped s _⟩

/-- Settles O21: the add into `st(0)` of the expanded operand. -/
theorem addF32AddsTheExpandedOperand : Obligations.AddF32AddsTheExpandedOperand :=
  fun d s => ⟨decode_addF32_low d, _, exec_addF32 _ s, rfl, addInto_zero_noDataOut_receivesSum s _⟩

/-- Settles O22: the add into `st(0)` of the expanded operand. -/
theorem addF64AddsTheExpandedOperand : Obligations.AddF64AddsTheExpandedOperand :=
  fun d s => ⟨decode_addF64_low d, _, exec_addF64 _ s, rfl, addInto_zero_noDataOut_receivesSum s _⟩

/-- Settles O23: the add into `st(0)` of the operand itself. -/
theorem addF80AddsTheOperandAsGiven : Obligations.AddF80AddsTheOperandAsGiven :=
  fun d s => ⟨decode_addF80 d, _, exec_addF80 d s, rfl, addInto_zero_noDataOut_receivesSum s d⟩

/-- Settles O24: the add into `st(0)` of `st(i)`; for `i = 0` the adder's operands are equal, and the sum it defines is
the doubled pattern. -/
theorem addStackAddsTheRegister : Obligations.AddStackAddsTheRegister := by
  refine ⟨rfl, fun i d s => ⟨decode_addStack i d, _, exec_addStack i s, rfl, ?_⟩⟩
  have hsum := addInto_zero_noDataOut_receivesSum s (s.readSlot (s.top + i))
  refine ⟨hsum, fun hi hnormal hlast => ?_⟩
  obtain ⟨hdst, -⟩ := hsum
  have hself : s.top + i = s.top := by simp [hi]
  rw [hself] at hdst ⊢
  rw [hdst _ (add80_self_of_normal hnormal hlast), unpackF80_packF80]

/-- Settles O25: the add into `st(i)`; the pop raises `top`, so the slot that took the sum is `st(i-1)` after it. -/
theorem addPopAddsThenPops : Obligations.AddPopAddsThenPops := by
  refine ⟨rfl, fun i d s => ⟨decode_addPop i d, _, exec_addPop i s, rfl,
    addInto_pop_noDataOut_receivesSum s i _, ?_⟩⟩
  have hslot : s.top + 1 + (i - 1) = s.top + i := by ring
  rw [← hslot]
  rfl

end Sys2Proof.Machine
end

section
/-! ### The encoder against the table of R39 -/

namespace Sys2Proof

/-- What the host drives for a narrow operand is that operand's number, and so is what the command reads (R21). -/
theorem dataIn_eq_of_toNat {n : Nat} (hn : n ≤ 80) {d : F80} {v : BitVec n}
    (h : d.toNat % 2 ^ n = (v.setWidth 80).toNat) : dataIn n d = v := by
  rw [BitVec.toNat_setWidth_of_le hn] at h
  exact BitVec.eq_of_toNat_eq (by rw [dataIn, BitVec.toNat_setWidth, h])

/-- The operand a command reads, driven again, is the data input on the bits read and zero above (R21). -/
theorem toNat_setWidth_dataIn {n : Nat} (hn : n ≤ 80) (d : F80) :
    ((dataIn n d).setWidth 80).toNat = d.toNat % 2 ^ n := by
  rw [BitVec.toNat_setWidth_of_le hn, dataIn, BitVec.toNat_setWidth]

/-- The encoder's word of an operation with an index is the pattern of its row with the index set in (R34, R39). -/
theorem commandWord_index (op : BitVec 3) (i : StackIndex) :
    commandWord op 0 i = commandWord op 0 0 ||| i.setWidth 8 := by
  revert op i; decide +kernel

/-- A word with `fmt = 00` is made of its `op` and its index (R34). -/
theorem commandWord_idxField {op : BitVec 3} {w : BitVec 8} (hw : w &&& 0xF8 = commandWord op 0 0) :
    commandWord op 0 (idxField w) = w := by
  revert op w; decide +kernel

/-- The encoder's word, with its operand in the bits the command reads, decodes to the instruction. -/
theorem decode_of_encode {c : Command} {i : Instr} (hw : c.cmd = (encode i).cmd)
    (hd : c.din.toNat % 2 ^ dinBits i = (encode i).din.toNat) : decode c = some i := by
  obtain ⟨w, d⟩ := c
  obtain rfl : w = (encode i).cmd := hw
  cases i with
  | loadF32 v =>
    have hv : dataIn 32 d = v := dataIn_eq_of_toNat (by decide) hd
    exact hv ▸ decode_loadF32 d
  | loadF64 v =>
    have hv : dataIn 64 d = v := dataIn_eq_of_toNat (by decide) hd
    exact hv ▸ decode_loadF64 d
  | loadF80 v =>
    have hv : d = v := BitVec.eq_of_toNat_eq ((Nat.mod_eq_of_lt d.isLt).symm.trans hd)
    exact hv ▸ decode_loadF80 d
  | loadFromStack n => rw [encode, commandWord_index]; exact decode_loadFromStack n d
  | storeAndPopF32 => exact decode_storeAndPopF32 d
  | storeAndPopF64 => exact decode_storeAndPopF64 d
  | storeAndPopF80 => exact decode_storeAndPopF80 d
  | addF32 v =>
    have hv : dataIn 32 d = v := dataIn_eq_of_toNat (by decide) hd
    exact hv ▸ decode_addF32 d
  | addF64 v =>
    have hv : dataIn 64 d = v := dataIn_eq_of_toNat (by decide) hd
    exact hv ▸ decode_addF64 d
  | addF80 v =>
    have hv : d = v := BitVec.eq_of_toNat_eq ((Nat.mod_eq_of_lt d.isLt).symm.trans hd)
    exact hv ▸ decode_addF80 d
  | addStack n => rw [encode, commandWord_index]; exact decode_addStack n d
  | addPop n => rw [encode, commandWord_index]; exact decode_addPop n d

/-- Each row builds the instruction whose encoding is the word that selected it, with the data on the bits read. -/
theorem encode_build {r : OpcodeRow} (hr : r ∈ opcodeTable) {w : BitVec 8} (hw : w &&& r.mask = r.pat) (d : F80) :
    (encode (r.build (idxField w) d)).cmd = w ∧
      d.toNat % 2 ^ dinBits (r.build (idxField w) d) = (encode (r.build (idxField w) d)).din.toNat := by
  have hfixed {p : BitVec 8} (h : w &&& 0xFF = p) : p = w := h.symm.trans BitVec.and_allOnes
  have hnone : d.toNat % 2 ^ 0 = (0 : F80).toNat := Nat.mod_one _
  have h32 := (toNat_setWidth_dataIn (n := 32) (by decide) d).symm
  have h64 := (toNat_setWidth_dataIn (n := 64) (by decide) d).symm
  have h80 : d.toNat % 2 ^ 80 = (dataIn 80 d).toNat := by rw [dataIn_80, Nat.mod_eq_of_lt d.isLt]
  simp only [opcodeTable, List.mem_cons, List.not_mem_nil, or_false] at hr
  obtain rfl | rfl | rfl | rfl | rfl | rfl | rfl | rfl | rfl | rfl | rfl | rfl := hr
  · exact ⟨hfixed hw, h32⟩
  · exact ⟨hfixed hw, h64⟩
  · exact ⟨hfixed hw, h80⟩
  · exact ⟨commandWord_idxField hw, hnone⟩
  · exact ⟨hfixed hw, hnone⟩
  · exact ⟨hfixed hw, hnone⟩
  · exact ⟨hfixed hw, hnone⟩
  · exact ⟨hfixed hw, h32⟩
  · exact ⟨hfixed hw, h64⟩
  · exact ⟨hfixed hw, h80⟩
  · exact ⟨commandWord_idxField hw, hnone⟩
  · exact ⟨commandWord_idxField hw, hnone⟩

/-- A command decodes to `i` exactly when it is `i`'s encoding on the word and on the data bits `i` reads (R21, R39). -/
theorem decode_eq_some_iff {c : Command} {i : Instr} : decode c = some i ↔
    c.cmd = (encode i).cmd ∧ c.din.toNat % 2 ^ dinBits i = (encode i).din.toNat := by
  refine ⟨fun h => ?_, fun ⟨hw, hd⟩ => decode_of_encode hw hd⟩
  obtain ⟨r, hrow, rfl⟩ := Option.map_eq_some_iff.mp h
  obtain ⟨hr, hw⟩ := selectRow_eq_some_iff.mp hrow
  obtain ⟨hcmd, hdin⟩ := encode_build hr hw c.din
  exact ⟨hcmd.symm, hdin⟩

/-- The encoder drives nothing above the bits the command reads (log entry 5). -/
theorem encode_din_lt (i : Instr) : (encode i).din.toNat < 2 ^ dinBits i := by
  cases i with
  | loadF32 v | addF32 v => exact (BitVec.toNat_setWidth_of_le (by decide)).trans_lt v.isLt
  | loadF64 v | addF64 v => exact (BitVec.toNat_setWidth_of_le (by decide)).trans_lt v.isLt
  | loadF80 v | addF80 v => exact v.isLt
  | loadFromStack | storeAndPopF32 | storeAndPopF64 | storeAndPopF80 | addStack | addPop => exact Nat.one_pos

/-- Settles O3: the encoder's own word and data meet the condition under which a command decodes to `i`. -/
theorem decodeOfEncodeGivesTheInstruction : Obligations.DecodeOfEncodeGivesTheInstruction :=
  fun i _ => decode_eq_some_iff.mpr ⟨rfl, Nat.mod_eq_of_lt (encode_din_lt i)⟩

/-- Settles O4: what it is for a command to decode to `i` says nothing of the bits of `din` that `i` ignores. -/
theorem encodeOfDecodeGivesTheCommand : Obligations.EncodeOfDecodeGivesTheCommand := by
  refine ⟨fun c i h => ?_, fun c i d h hd => ?_⟩
  · obtain ⟨hw, hdin⟩ := decode_eq_some_iff.mp h
    exact ⟨hw.symm, hdin.symm⟩
  · obtain ⟨hw, hdin⟩ := decode_eq_some_iff.mp h
    exact decode_eq_some_iff.mpr ⟨hw, hd.trans hdin⟩

end Sys2Proof
end

section
/-! ### What a legal command can do, said once for all twelve -/

namespace Sys2Proof

/-- The three commands that return a value (R124 to R126). -/
def Instr.IsStore (i : Instr) : Prop := i = .storeAndPopF32 ∨ i = .storeAndPopF64 ∨ i = .storeAndPopF80

/-- The four adds whose destination is `st(0)` and which do not pop (R127 to R130). -/
def Instr.IsAddToTop (i : Instr) : Prop :=
  (∃ v, i = .addF32 v) ∨ (∃ v, i = .addF64 v) ∨ (∃ v, i = .addF80 v) ∨ ∃ n, i = .addStack n

end Sys2Proof

namespace Sys2Proof.Machine

/-- Everything a legal command can do (R120 to R131): it pushes, returns data and pops, adds into `st(0)`, or adds into
a register and pops; what it pushes, returns or adds is a function of the registers as named from `top` (R12). In every
case it completes. -/
theorem exec_cases (i : Instr) :
    (¬ i.IsStore ∧ ¬ i.IsAddToTop ∧
      ∃ v : (StackIndex → F80) → F80, ∀ s, exec i s = .next (s.push (v s.st)).noDataOut) ∨
    (i.IsStore ∧ ¬ i.IsAddToTop ∧
      ∃ v : (StackIndex → F80) → F80, ∀ s, exec i s = .next (s.pop.2.driveOutputs (v s.st) true false)) ∨
    (¬ i.IsStore ∧ i.IsAddToTop ∧
      ∃ v : (StackIndex → F80) → F80, ∀ s, exec i s = .next (s.addInto 0 (v s.st)).noDataOut) ∨
    (¬ i.IsStore ∧ ¬ i.IsAddToTop ∧
      ∃ (n : StackIndex) (v : (StackIndex → F80) → F80),
        ∀ s, exec i s = .next (s.addInto n (v s.st)).pop.2.noDataOut) := by
  cases i with
  | loadF32 v => exact .inl ⟨by simp [Instr.IsStore], by simp [Instr.IsAddToTop], fun _ => expandF32 v, fun _ => rfl⟩
  | loadF64 v => exact .inl ⟨by simp [Instr.IsStore], by simp [Instr.IsAddToTop], fun _ => expandF64 v, fun _ => rfl⟩
  | loadF80 v => exact .inl ⟨by simp [Instr.IsStore], by simp [Instr.IsAddToTop], fun _ => v, fun _ => rfl⟩
  | loadFromStack n => exact .inl ⟨by simp [Instr.IsStore], by simp [Instr.IsAddToTop], fun st => st n, fun _ => rfl⟩
  | storeAndPopF32 =>
    exact .inr (.inl ⟨.inl rfl, by simp [Instr.IsAddToTop], fun st => (compressF32 (st 0)).setWidth 80, fun _ => rfl⟩)
  | storeAndPopF64 =>
    exact .inr (.inl ⟨.inr (.inl rfl), by simp [Instr.IsAddToTop], fun st => (compressF64 (st 0)).setWidth 80,
      fun _ => rfl⟩)
  | storeAndPopF80 =>
    exact .inr (.inl ⟨.inr (.inr rfl), by simp [Instr.IsAddToTop], fun st => (st 0).setWidth 80, fun _ => rfl⟩)
  | addF32 v => exact .inr (.inr (.inl ⟨by simp [Instr.IsStore], .inl ⟨v, rfl⟩, fun _ => expandF32 v, fun _ => rfl⟩))
  | addF64 v =>
    exact .inr (.inr (.inl ⟨by simp [Instr.IsStore], .inr (.inl ⟨v, rfl⟩), fun _ => expandF64 v, fun _ => rfl⟩))
  | addF80 v =>
    exact .inr (.inr (.inl ⟨by simp [Instr.IsStore], .inr (.inr (.inl ⟨v, rfl⟩)), fun _ => v, fun _ => rfl⟩))
  | addStack n =>
    exact .inr (.inr (.inl ⟨by simp [Instr.IsStore], .inr (.inr (.inr ⟨n, rfl⟩)), fun st => st n, fun _ => rfl⟩))
  | addPop n =>
    exact .inr (.inr (.inr ⟨by simp [Instr.IsStore], by simp [Instr.IsAddToTop], n, fun st => st 0, fun _ => rfl⟩))

/-- An add writes no slot but its destination. -/
theorem addInto_sameSlotsBut (s : State) (dst : StackIndex) (b : F80) :
    s.SameSlotsBut (s.addInto dst b) (s.top + dst) := by
  intro q hq
  simp [addInto_eq, hq]

/-- A push writes no slot but the new top's. -/
theorem push_sameSlotsBut (s : State) (v : F80) : s.SameSlotsBut (s.push v) (s.top - 1) := by
  intro q hq
  rw [push_eq, writeSlot_readSlot, if_neg hq, setTop_readSlot]

/-- Settles O11: in each of the four cases one slot at most is written and `top` moves by one place at most. -/
theorem everyLegalCommandCompletes : Obligations.EveryLegalCommandCompletes := by
  intro i s
  obtain ⟨-, -, v, h⟩ | ⟨-, -, v, h⟩ | ⟨-, -, v, h⟩ | ⟨-, -, n, v, h⟩ := exec_cases i
  · exact ⟨_, h s, ⟨_, push_sameSlotsBut s (v s.st)⟩, .inr (.inl rfl), rfl⟩
  · exact ⟨_, h s, ⟨0, fun _ _ => rfl⟩, .inr (.inr rfl), rfl⟩
  · exact ⟨_, h s, ⟨_, addInto_sameSlotsBut s 0 (v s.st)⟩, .inl rfl, rfl⟩
  · exact ⟨_, h s, ⟨_, addInto_sameSlotsBut s n (v s.st)⟩, .inr (.inr rfl), rfl⟩

/-- The outputs when a legal command completes (R21, R133): data from a store and from no other command, no fault. -/
theorem outputs_of_exec {i : Instr} {s t : State} (h : exec i s = .next t) :
    (i.IsStore ∧ t.doutValid = true ∨ ¬ i.IsStore ∧ t.doutValid = false ∧ t.dout = 0) ∧ t.fault = false := by
  obtain ⟨hi, -, v, e⟩ | ⟨hi, -, v, e⟩ | ⟨hi, -, v, e⟩ | ⟨hi, -, n, v, e⟩ := exec_cases i
  · cases (e s).symm.trans h; exact ⟨.inr ⟨hi, rfl, rfl⟩, rfl⟩
  · cases (e s).symm.trans h; exact ⟨.inl ⟨hi, rfl⟩, rfl⟩
  · cases (e s).symm.trans h; exact ⟨.inr ⟨hi, rfl, rfl⟩, rfl⟩
  · cases (e s).symm.trans h; exact ⟨.inr ⟨hi, rfl, rfl⟩, rfl⟩

/-- Settles O10: read off the outputs of a completed command. -/
theorem onlyStoresDriveData : Obligations.OnlyStoresDriveData := by
  intro i s t h
  obtain ⟨⟨hi, hvalid⟩ | ⟨hi, hvalid, hdout⟩, hfault⟩ := outputs_of_exec h
  · exact ⟨iff_of_true hvalid hi, fun hv => absurd (hvalid.symm.trans hv) (by decide), hfault⟩
  · exact ⟨iff_of_false (by simp [hvalid]) hi, fun _ => hdout, hfault⟩

/-! ### Steps -/

/-- Settles O6: the hand-over of a presented legal command is its meaning. -/
theorem stepRunsTheDecodedCommand : Obligations.StepRunsTheDecodedCommand := by
  intro s c rest i hin hdecode _
  rw [step_eq_handOver hin]
  simp [handOver, State.cmdReady, hdecode, State.setInputs]

/-- Settles O7: the reset state by its fields, and a reset input by the reset event. -/
theorem resetStateIsAllZero : Obligations.ResetStateIsAllZero := by
  refine ⟨⟨rfl, reset_readSlot, rfl, rfl, rfl⟩, fun s valid c rest hin => ?_⟩
  exact ⟨(s.setInputs rest).resetCore, step_eq_handOver hin, rfl, resetCore_readSlot _, rfl, rfl, rfl, rfl⟩

theorem step_of_no_input {s : State} (h : s.inputs = []) : step s = .next s := by
  simp [step, h]

/-- Settles O8: the two cases of a step in which no command is presented. -/
theorem withoutACommandTheCoreWaits : Obligations.WithoutACommandTheCoreWaits := by
  refine ⟨fun s hin => step_of_no_input hin, fun s c rest hin => ?_⟩
  rw [step_eq_handOver hin]
  rfl

/-- Settles O13: at reset there is no data and no fault. -/
theorem resetMeetsTheOutputInvariant : Obligations.ResetMeetsTheOutputInvariant :=
  ⟨fun _ => rfl, fun h => nomatch h⟩

/-- A completed command leaves the outputs consistent, whatever they were. -/
theorem outputsConsistent_of_exec {i : Instr} {s t : State} (h : exec i s = .next t) : t.OutputsConsistent := by
  obtain ⟨hdata, hfault⟩ := outputs_of_exec h
  refine ⟨fun hvalid => ?_, fun hf => absurd (hfault.symm.trans hf) (by decide)⟩
  obtain ⟨-, hv⟩ | ⟨-, -, hdout⟩ := hdata
  · exact absurd (hvalid.symm.trans hv) (by decide)
  · exact hdout

/-- A hand-over that answers a next state keeps the outputs consistent: a reset clears them, a command drives them, and
otherwise they stay (log entry 3). -/
theorem outputsConsistent_of_handOver {p : PortInput} {s t : State} (hs : s.OutputsConsistent)
    (h : handOver p s = .next t) : t.OutputsConsistent := by
  obtain ⟨-, e⟩ | ⟨-, -, ⟨i, -, e⟩ | ⟨-, e⟩⟩ | ⟨-, -, e⟩ := handOver_cases p s
  · cases e.symm.trans h; exact resetMeetsTheOutputInvariant
  · exact outputsConsistent_of_exec (e.symm.trans h)
  · cases e.symm.trans h
  · cases e.symm.trans h; exact hs

/-- Settles O12: a step is a hand-over or nothing, and where the hardware goes on after the fault it drives no data. -/
theorem stepsKeepTheOutputsConsistent : Obligations.StepsKeepTheOutputsConsistent := by
  refine ⟨fun s t hs h => ?_, fun p s hs => ?_⟩
  · unfold step at h
    split at h
    case h_1 => cases h; exact hs
    case h_2 p rest _ => exact outputsConsistent_of_handOver (s := s.setInputs rest) hs h
  · unfold hardwareStep
    split
    case h_1 t h => exact outputsConsistent_of_handOver hs h
    · exact ⟨fun _ => rfl, fun _ => rfl⟩
    · exact hs

/-- A store-and-pop writes no slot (R124 to R126). -/
theorem readSlot_of_exec_store {i : Instr} {s t : State} (hi : i.IsStore) (h : exec i s = .next t) (q : StackIndex) :
    t.readSlot q = s.readSlot q := by
  obtain rfl | rfl | rfl := hi <;> cases h <;> rfl

/-- An add that does not pop leaves `top` (R127 to R130). -/
theorem top_of_exec_addToTop {i : Instr} {s t : State} (hi : i.IsAddToTop) (h : exec i s = .next t) :
    t.top = s.top := by
  obtain ⟨v, rfl⟩ | ⟨v, rfl⟩ | ⟨v, rfl⟩ | ⟨n, rfl⟩ := hi <;> cases h <;> rfl

/-- Settles O9: only the commands' cases of a step touch the stack; a pop alone writes no slot, and an add without a
pop leaves `top`. -/
theorem onlyCommandsChangeTheStack : Obligations.OnlyCommandsChangeTheStack := by
  intro s t h hrst
  obtain ⟨-, rfl⟩ | ⟨p, rest, hin, ⟨hr, -⟩ | ⟨-, hv, i, hi, he⟩ | ⟨-, -, rfl⟩⟩ := step_next_cases h
  · exact ⟨fun ⟨q, hq⟩ => absurd rfl hq, fun htop => absurd rfl htop⟩
  · exact absurd (hr.symm.trans (hrst p rest hin)) (by decide)
  · refine ⟨fun ⟨q, hq⟩ => ⟨p, rest, i, hin, hv, hi, ?_⟩, fun htop => ⟨p, rest, i, hin, hv, hi, ?_⟩⟩
    · have hstore : ¬ i.IsStore := fun hs => hq (readSlot_of_exec_store (s := s.setInputs rest) hs he q)
      simpa only [Instr.IsStore, not_or] using hstore
    · have hadd : ¬ i.IsAddToTop := fun ha => htop (top_of_exec_addToTop (s := s.setInputs rest) ha he)
      simpa only [Instr.IsAddToTop, not_or, not_exists] using hadd
  · exact ⟨fun ⟨q, hq⟩ => absurd rfl hq, fun htop => absurd rfl htop⟩

/-! ### The unspecified sum (R110, R132) -/

/-- Where the adder defines no result, an add and a command's end give the destination the free value and change
nothing else. -/
theorem addInto_noDataOut_of_none {s : State} {dst : StackIndex} {b : F80}
    (h : add80 (s.readSlot (s.top + dst)) b 0 = none) :
    (s.addInto dst b).noDataOut.readSlot (s.top + dst) = Config.freeValue (s.readSlot (s.top + dst)) b 0 := by
  simpa [addInto_eq, State.noDataOut, st_eq] using adderResult_of_none h

/-- Settles O26: the five adds are one write of the adder's output, which is the free value where no sum is defined. -/
theorem unspecifiedSumReachesOnlyTheDestination : Obligations.UnspecifiedSumReachesOnlyTheDestination := by
  refine ⟨fun i b s hi hnone => ?_, fun n s hnone => ?_⟩
  · have hexec : exec i s = .next (s.addInto 0 b).noDataOut := by
      obtain ⟨v, rfl, rfl⟩ | ⟨v, rfl, rfl⟩ | rfl | ⟨n, rfl, rfl⟩ := hi
      · exact exec_addF32 v s
      · exact exec_addF64 v s
      · exact exec_addF80 b s
      · exact exec_addStack n s
    have htop : s.top + 0 = s.top := BitVec.add_zero s.top
    have hfree := addInto_noDataOut_of_none (dst := 0) (htop.symm ▸ hnone)
    obtain ⟨-, hframe, houts, hin⟩ := addInto_zero_noDataOut_receivesSum s b
    exact ⟨_, hexec, htop ▸ hfree, hframe, rfl, houts, hin⟩
  · obtain ⟨-, hframe, houts, hin⟩ := addInto_pop_noDataOut_receivesSum s n (s.readSlot s.top)
    exact ⟨_, exec_addPop n s, addInto_noDataOut_of_none hnone, hframe, rfl, houts, hin⟩

end Sys2Proof.Machine
end

section
/-! ### Rotation (R152): every operation on the state commutes with it -/

namespace Sys2Proof.Machine

section Rotate
variable (s : State) (k : StackIndex)

@[simp] theorem rotate_top : (s.rotate k).top = s.top + k := rfl

theorem setInputs_rotate (l : List PortInput) : (s.rotate k).setInputs l = (s.setInputs l).rotate k := rfl

/-- A write to the rotated slot is the rotation of the write. -/
theorem writeSlot_rotate (p : StackIndex) (v : F80) :
    (s.rotate k).writeSlot (p + k) v = (s.writeSlot p v).rotate k := by
  refine state_ext (fun q => ?_) rfl rfl rfl rfl rfl
  simp only [writeSlot_readSlot, rotate_readSlot, sub_eq_iff_eq_add (c := p)]

theorem setTop_rotate (v : StackIndex) : (s.rotate k).setTop (v + k) = (s.setTop v).rotate k := rfl

/-- The registers relative to `top` are the same: rotation moves the slot and the name together (R12). -/
theorem st_rotate (i : StackIndex) : (s.rotate k).st i = s.st i := by
  have hslot : s.top + k + i - k = s.top + i := by ring
  rw [st_eq, rotate_readSlot, rotate_top, hslot, st_eq]

theorem push_rotate (v : F80) : (s.rotate k).push v = (s.push v).rotate k := by
  have htop : s.top + k - 1 = s.top - 1 + k := by ring
  rw [push_eq, push_eq, rotate_top, htop, setTop_rotate, writeSlot_rotate]

theorem pop_rotate : (s.rotate k).pop.2 = s.pop.2.rotate k := by
  have htop : s.top + k + 1 = s.top + 1 + k := by ring
  rw [State.pop, rotate_top, htop, setTop_rotate, State.pop]

theorem addInto_rotate (dst : StackIndex) (b : F80) : (s.rotate k).addInto dst b = (s.addInto dst b).rotate k := by
  have hslot : s.top + k + dst = s.top + dst + k := by ring
  rw [addInto_eq, addInto_eq, st_rotate, rotate_top, hslot, writeSlot_rotate]

/-- A legal command on the rotated state is the rotation of the command: its operand comes from the registers, which
rotation leaves (R120 to R131). -/
theorem exec_rotate (i : Instr) : ∃ t, exec i s = .next t ∧ exec i (s.rotate k) = .next (t.rotate k) := by
  have hst : (s.rotate k).st = s.st := funext (st_rotate s k)
  obtain ⟨-, -, v, e⟩ | ⟨-, -, v, e⟩ | ⟨-, -, v, e⟩ | ⟨-, -, n, v, e⟩ := exec_cases i
  · exact ⟨_, e s, by rw [e, hst, push_rotate]; rfl⟩
  · exact ⟨_, e s, by rw [e, hst, pop_rotate]; rfl⟩
  · exact ⟨_, e s, by rw [e, hst, addInto_rotate]; rfl⟩
  · exact ⟨_, e s, by rw [e, hst, addInto_rotate, pop_rotate]; rfl⟩

end Rotate

/-! ### The hand-over of a command, and what the hardware makes of it -/

/-- A presented legal command is handed to its meaning (R153). -/
theorem handOver_legal {c : Command} {i : Instr} (hc : decode c = some i) (s : State) :
    handOver (.ofCommand c) s = exec i s := by
  simp [handOver, PortInput.ofCommand, State.cmdReady, hc]

theorem hardwareStep_of_exec {c : Command} {i : Instr} {s t : State} (hc : decode c = some i)
    (h : exec i s = .next t) : hardwareStep (.ofCommand c) s = t := by
  simp [hardwareStep, handOver_legal hc, h]

/-- Without reset, the hand-over on the rotated state answers as on the state itself, with the next state rotated. -/
theorem handOver_rotate {p : PortInput} (hp : p.rst = false) (s : State) (k : StackIndex) :
    (∃ t, handOver p s = .next t ∧ handOver p (s.rotate k) = .next (t.rotate k)) ∨
    (handOver p s = .fault .illegalCommand ∧ handOver p (s.rotate k) = .fault .illegalCommand) := by
  obtain ⟨rst, valid, c⟩ := p
  obtain rfl : rst = false := hp
  cases valid with
  | false => exact .inl ⟨s, rfl, rfl⟩
  | true =>
    cases hc : decode c with
    | none => exact .inr ⟨handOver_illegal hc s, handOver_illegal hc _⟩
    | some i =>
      obtain ⟨t, h, hrot⟩ := exec_rotate s k i
      exact .inl ⟨t, (handOver_legal hc s).trans h, (handOver_legal hc _).trans hrot⟩

theorem hardwareStep_rotate {p : PortInput} (hp : p.rst = false) (s : State) (k : StackIndex) :
    hardwareStep p (s.rotate k) = (hardwareStep p s).rotate k := by
  obtain ⟨t, h, hrot⟩ | ⟨h, hrot⟩ := handOver_rotate hp s k
  · simp [hardwareStep, h, hrot]
  · simp only [hardwareStep, h, hrot]
    rfl

/-- Settles O60: a step is the hand-over of the first input, or nothing. -/
theorem rotationCommutesWithEveryStep : Obligations.RotationCommutesWithEveryStep := by
  refine ⟨fun p s k hp => hardwareStep_rotate hp s k, fun s t k hrst h => ?_⟩
  cases hin : s.inputs with
  | nil =>
    cases (step_of_no_input hin).symm.trans h
    exact step_of_no_input hin
  | cons p rest =>
    have hrot : (s.rotate k).inputs = p :: rest := hin
    rw [step_eq_handOver hin] at h
    rw [step_eq_handOver hrot, setInputs_rotate]
    obtain ⟨u, hu, hurot⟩ | ⟨hu, -⟩ := handOver_rotate (hrst p rest hin) (s.setInputs rest) k
    · cases hu.symm.trans h
      exact hurot
    · cases hu.symm.trans h

/-! ### Runs -/

@[simp] theorem commandRun_nil (s : State) : commandRun [] s = ([], s) := rfl

theorem commandRun_cons (c : Command) (cs : List Command) (s : State) :
    commandRun (c :: cs) s =
      ((hardwareStep (.ofCommand c) s).outputs :: (commandRun cs (hardwareStep (.ofCommand c) s)).1,
        (commandRun cs (hardwareStep (.ofCommand c) s)).2) := rfl

/-- Settles O57: rotated states stay rotated command by command, and the outputs do not depend on the rotation. -/
theorem rotationIsUnobservable : Obligations.RotationIsUnobservable := by
  intro cs s k
  induction cs generalizing s with
  | nil => rfl
  | cons c cs ih =>
    rw [commandRun_cons, commandRun_cons, hardwareStep_rotate rfl, ih]
    rfl

/-! ### No hidden state (R16, R111) -/

/-- Two states with the same stack differ at most in their ports. -/
theorem sameStack_iff {s t : State} : s.SameStack t ↔
    t = (s.driveOutputs t.dout t.doutValid t.fault).setInputs t.inputs := by
  refine ⟨fun ⟨htop, hslot⟩ => state_ext hslot htop rfl rfl rfl rfl, fun h => ?_⟩
  rw [h]
  exact ⟨rfl, fun _ => rfl⟩

/-- A legal command gives the same outputs and the same stack whatever the ports held before (R16). -/
theorem exec_ports (i : Instr) (s : State) (d : F80) (v f : Bool) (l : List PortInput) :
    ∃ t, exec i s = .next t ∧ exec i ((s.driveOutputs d v f).setInputs l) = .next (t.setInputs l) := by
  cases i <;> exact ⟨_, rfl, rfl⟩

/-- A presented command, legal or not, gives the same outputs and the same stack from two states with the same stack. -/
theorem hardwareStep_sameStack {s t : State} (h : s.SameStack t) (c : Command) :
    (hardwareStep (.ofCommand c) t).outputs = (hardwareStep (.ofCommand c) s).outputs ∧
    (hardwareStep (.ofCommand c) s).SameStack (hardwareStep (.ofCommand c) t) := by
  cases hc : decode c with
  | none =>
    rw [hardwareStep_illegal hc, hardwareStep_illegal hc]
    exact ⟨rfl, h⟩
  | some i =>
    rw [sameStack_iff] at h
    obtain ⟨u, hs, ht⟩ := exec_ports i s t.dout t.doutValid t.fault t.inputs
    rw [← h] at ht
    rw [hardwareStep_of_exec hc hs, hardwareStep_of_exec hc ht]
    exact ⟨rfl, rfl, fun _ => rfl⟩

theorem commandRun_sameStack {s t : State} (cs : List Command) (h : s.SameStack t) :
    (commandRun cs t).1 = (commandRun cs s).1 ∧ (commandRun cs s).2.SameStack (commandRun cs t).2 := by
  induction cs generalizing s t with
  | nil => exact ⟨rfl, h⟩
  | cons c cs ih =>
    obtain ⟨houts, hstep⟩ := hardwareStep_sameStack h c
    obtain ⟨htail, hfinal⟩ := ih hstep
    rw [commandRun_cons, commandRun_cons, houts, htail]
    exact ⟨rfl, hfinal⟩

/-- Settles O58: a faulting command leaves the stack, and the stack is all that later commands depend on. -/
theorem aFaultLeavesNoTraceInLaterCommands : Obligations.AFaultLeavesNoTraceInLaterCommands := by
  refine ⟨fun c cs s hc => ?_, fun cs s t h => commandRun_sameStack cs h⟩
  obtain ⟨houts, hfinal⟩ := commandRun_sameStack cs (raiseFault_sameStack s)
  rw [commandRun_cons, hardwareStep_illegal hc, houts]
  exact ⟨rfl, hfinal⟩

/-! ### The model's steps against the hardware's run (R141, R156) -/

/-- The model's step on presented commands hands over the first of them. -/
theorem step_present (c : Command) (cs : List Command) (s : State) :
    step (s.present (c :: cs)) = handOver (.ofCommand c) (s.present cs) := rfl

/-- The commands still to come do not matter to the one that is handed over. -/
theorem exec_present (i : Instr) (s : State) (cs : List Command) :
    ∃ t, exec i s = .next t ∧ exec i (s.present cs) = .next (t.present cs) := by
  cases i <;> exact ⟨_, rfl, rfl⟩

theorem inputs_of_exec {i : Instr} {s t : State} (h : exec i s = .next t) : t.inputs = s.inputs := by
  obtain ⟨u, hu, -, -, hin⟩ := everyLegalCommandCompletes i s
  cases hu.symm.trans h
  exact hin

/-- The steps on a list of presented commands: the hardware's final state, or the fault of an illegal one. -/
theorem stepRun_present (cs : List Command) {s : State} (hs : s.inputs = []) :
    stepRun cs.length (s.present cs) =
      if cs.all (fun c => (decode c).isSome) then .next (commandRun cs s).2 else .fault .illegalCommand := by
  induction cs generalizing s with
  | nil =>
    have hnone : s.present [] = s := state_ext (fun _ => rfl) rfl rfl rfl rfl rfl
    simp [stepRun, hnone]
  | cons c cs ih =>
    rw [List.length_cons, stepRun, step_present]
    cases hc : decode c with
    | none => simp [handOver_illegal hc, hc]
    | some i =>
      obtain ⟨t, hexec, hpresent⟩ := exec_present i s cs
      have hin : t.inputs = [] := (inputs_of_exec hexec).trans hs
      simp only [handOver_legal hc, hpresent, ih hin, commandRun_cons, hardwareStep_of_exec hc hexec, List.all_cons, hc,
        Option.isSome_some, Bool.true_and]

/-- One presented command raises the fault exactly when it is illegal (R38, R133). -/
theorem hardwareStep_fault (c : Command) (s : State) :
    (hardwareStep (.ofCommand c) s).outputs.fault = false ↔ (decode c).isSome = true := by
  cases hc : decode c with
  | none =>
    rw [hardwareStep_illegal hc]
    exact ⟨(nomatch ·), (nomatch ·)⟩
  | some i =>
    obtain ⟨t, hexec, -⟩ := everyLegalCommandCompletes i s
    obtain ⟨-, hfault⟩ := outputs_of_exec hexec
    rw [hardwareStep_of_exec hc hexec]
    exact iff_of_true hfault rfl

theorem goodRun_iff (cs : List Command) (s : State) : GoodRun cs s ↔ ∀ c ∈ cs, (decode c).isSome = true := by
  induction cs generalizing s with
  | nil => simp [GoodRun]
  | cons c cs ih =>
    rw [List.forall_mem_cons, ← ih (hardwareStep (.ofCommand c) s), ← hardwareStep_fault c s, GoodRun, commandRun_cons,
      List.forall_mem_cons, GoodRun]

/-- Settles O59: the steps follow the run command by command, and no legal command raises the fault. -/
theorem stepsRefineTheHardwareRun : Obligations.StepsRefineTheHardwareRun :=
  fun cs s hs => ⟨stepRun_present cs hs, goodRun_iff cs s⟩

/-! ### Eight stores and nine loads (R14, R18) -/

/-- After a pop each register has the next lower index (R12, R13). -/
theorem pop_st (s : State) (i : StackIndex) : s.pop.2.st i = s.st (i + 1) := by
  have hslot : s.top + 1 + i = s.top + (i + 1) := by ring
  exact congrArg s.readSlot hslot

/-- After a push each register has the next higher index, but for `st(7)`, in whose slot the new value stands. -/
theorem push_st (s : State) (v : F80) (i : StackIndex) : (s.push v).st i = if i = 0 then v else s.st (i - 1) := by
  have hslot : s.top - 1 + i = s.top + (i - 1) := by ring
  have hnew : s.top + (i - 1) = s.top - 1 ↔ i = 0 := by rw [← hslot, add_eq_left]
  rw [st_eq, push_eq, writeSlot_readSlot, setTop_readSlot, writeSlot_top, setTop_top, hslot, st_eq]
  exact if_congr hnew rfl rfl

/-- One `store_and_pop_F80`: `st(0)` on the output, and `top` one higher. -/
theorem hardwareStep_storeAndPopF80 (d : F80) (s : State) :
    hardwareStep (.ofCommand ⟨0x50, d⟩) s = s.pop.2.dataOut (s.st 0) :=
  hardwareStep_of_exec (decode_storeAndPopF80 d) rfl

/-- Any number of `store_and_pop_F80`: the outputs are the registers in order, no slot is written, and `top` goes up by
the number. -/
theorem commandRun_replicate_store (d : F80) (n : Nat) (s : State) :
    (commandRun (List.replicate n ⟨0x50, d⟩) s).1.map PortOutput.dout =
      (List.range n).map (fun k => s.st (BitVec.ofNat 3 k)) ∧
    (commandRun (List.replicate n ⟨0x50, d⟩) s).2.top = s.top + BitVec.ofNat 3 n ∧
    ∀ q, (commandRun (List.replicate n ⟨0x50, d⟩) s).2.readSlot q = s.readSlot q := by
  induction n generalizing s with
  | zero => simp
  | succ n ih =>
    have hsucc (k : Nat) : BitVec.ofNat 3 (k + 1) = BitVec.ofNat 3 k + 1 := BitVec.ofNat_add k 1
    have htail (k : Nat) : (s.pop.2.dataOut (s.st 0)).st (BitVec.ofNat 3 k) = s.st (BitVec.ofNat 3 (k + 1)) := by
      rw [hsucc]
      exact pop_st s _
    obtain ⟨houts, htop, hslot⟩ := ih (s.pop.2.dataOut (s.st 0))
    rw [List.replicate_succ, commandRun_cons, hardwareStep_storeAndPopF80]
    refine ⟨?_, htop.trans ?_, hslot⟩
    · rw [List.map_cons, houts, List.range_succ_eq_map, List.map_cons, List.map_map]
      exact congrArg₂ List.cons (BitVec.setWidth_eq _) (List.map_congr_left fun k _ => htail k)
    · rw [hsucc, ← add_assoc, add_right_comm]
      rfl

/-- Settles O55: eight steps of `top` come back to where it was. -/
theorem eightStoresReadTheWholeStack : Obligations.EightStoresReadTheWholeStack := by
  intro d s
  obtain ⟨houts, htop, hslot⟩ := commandRun_replicate_store d 8 s
  exact ⟨houts, htop.trans (BitVec.add_zero s.top), hslot⟩

/-- `l` lists the registers of `s` from `st(0)` on, as far as there are registers. -/
def State.Holds (s : State) (l : List F80) : Prop := ∀ i : StackIndex, i.toNat < l.length → l[i.toNat]? = some (s.st i)

/-- A push puts its value before the values the registers list. -/
theorem holds_push {s : State} {l : List F80} (h : s.Holds l) (v : F80) : (s.push v).noDataOut.Holds (v :: l) := by
  intro i hi
  change (v :: l)[i.toNat]? = some ((s.push v).st i)
  rw [push_st]
  split
  case isTrue h0 => simp [h0]
  case isFalse h0 =>
    have hpred : i.toNat = (i - 1).toNat + 1 := by bv_omega
    rw [hpred, List.getElem?_cons_succ]
    rw [hpred, List.length_cons] at hi
    exact h (i - 1) (Nat.lt_of_succ_lt_succ hi)

/-- Loads push their operands one after the other, and none raises the fault. -/
theorem commandRun_loads (vs : List F80) {s : State} {l : List F80} (h : s.Holds l) :
    (commandRun (vs.map fun x => ⟨0x10, x⟩) s).2.Holds (vs.reverse ++ l) ∧
    ∀ o ∈ (commandRun (vs.map fun x => ⟨0x10, x⟩) s).1, o.fault = false := by
  induction vs generalizing s l with
  | nil => exact ⟨h, by simp⟩
  | cons v vs ih =>
    obtain ⟨hholds, hfault⟩ := ih (holds_push h v)
    rw [List.map_cons, commandRun_cons, hardwareStep_of_exec (decode_loadF80 v) (exec_loadF80 v s)]
    exact ⟨by simpa using hholds, by simpa [State.outputs, State.noDataOut] using hfault⟩

/-- Settles O56: of nine values listed newest first, the eight registers hold the first eight. -/
theorem ninthPushOverwritesTheOldest : Obligations.NinthPushOverwritesTheOldest := by
  intro v vs s hlen
  obtain ⟨hholds, hfault⟩ := commandRun_loads (v :: vs) (s := s) (l := []) (fun i hi => absurd hi (Nat.not_lt_zero _))
  refine ⟨fun i => ?_, hfault⟩
  have hi : i.toNat < vs.reverse.length := by
    rw [List.length_reverse, hlen]
    exact i.isLt
  have hall : i.toNat < ((v :: vs).reverse ++ []).length := by
    rw [List.append_nil, List.reverse_cons, List.length_append]
    exact Nat.lt_add_right 1 hi
  rw [← hholds i hall, List.append_nil, List.reverse_cons, List.getElem?_append_left hi]

end Sys2Proof.Machine
end

section
/-! ### The byte image (R22) -/

namespace Sys2Proof.Machine

@[simp] theorem byteImage_length (n : Nat) (b : BitVec (8 * n)) : (byteImage n b).length = n := by
  simp [byteImage]

theorem getElem?_byteImage {n k : Nat} (hk : k < n) (b : BitVec (8 * n)) :
    (byteImage n b)[k]? = some (b.extractLsb' (8 * k) 8) := by
  simp [byteImage, hk]

/-- Reading `n` bytes of a number from its lowest on gives the number's low `8 n` bits. -/
theorem ofByteImage_map_range (n x : Nat) :
    ofByteImage ((List.range n).map fun k => BitVec.ofNat 8 (x >>> (8 * k))) = x % 2 ^ (8 * n) := by
  induction n generalizing x with
  | zero => rw [Nat.mul_zero, pow_zero, Nat.mod_one]; rfl
  | succ n ih =>
    have htail (k : Nat) : x >>> (8 * (k + 1)) = (x / 256) >>> (8 * k) := by
      rw [Nat.mul_succ, Nat.add_comm, Nat.shiftRight_add, Nat.shiftRight_eq_div_pow x]
    have hpow : 2 ^ (8 * (n + 1)) = 256 * 2 ^ (8 * n) := by
      rw [Nat.mul_succ, pow_add, Nat.mul_comm]; rfl
    rw [List.range_succ_eq_map, List.map_cons, List.map_map, ofByteImage, hpow, Nat.mod_mul, ← ih (x / 256)]
    simp only [Function.comp_def, htail]
    rfl

/-- Settles O31: byte by byte from the lowest, by induction on the number of bytes. -/
theorem byteImageIsLittleEndian : Obligations.ByteImageIsLittleEndian :=
  fun n b => ⟨byteImage_length n b, fun _ hk => getElem?_byteImage hk b,
    (ofByteImage_map_range n b.toNat).trans (Nat.mod_eq_of_lt b.isLt)⟩

/-! ### The text form (R42, R55) and its reader (log entry 6) -/

@[simp] theorem hexDigits_length (n v : Nat) : (hexDigits n v).length = n := by
  induction n with
  | zero => rfl
  | succ n ih => rw [hexDigits, List.length_cons, ih]

/-- A character is read as the digit it prints. -/
theorem hexValue_eq_some_iff {c : Char} {d : Nat} : hexValue c = some d ↔ d < 16 ∧ c = hexDigit d := by
  refine ⟨fun h => ?_, fun ⟨hd, hc⟩ => ?_⟩
  · obtain ⟨hd, hc, -⟩ := List.idxOf?_eq_some_iff.mp h
    refine ⟨hd, ?_⟩
    rw [hexDigit, List.getD_eq_getElem _ _ hd]
    exact hc.symm
  · subst hc
    interval_cases d <;> rfl

/-- The digits are those of the low `4 n` bits. -/
theorem hexDigits_mul_add (n k v : Nat) : hexDigits n (k * 16 ^ n + v) = hexDigits n v := by
  induction n generalizing k with
  | zero => rfl
  | succ n ih =>
    have hsplit : k * 16 ^ (n + 1) + v = k * 16 * 16 ^ n + v := by ring
    have hdigit : (k * 16 * 16 ^ n + v) / 16 ^ n % 16 = v / 16 ^ n % 16 := by
      rw [Nat.add_comm, Nat.add_mul_div_right _ _ (by positivity), Nat.add_mul_mod_self_right]
    rw [hsplit, hexDigits, hdigit, ih, hexDigits]

/-- The first digit stands for the highest four bits. -/
theorem hexDigits_succ {n d v : Nat} (hd : d < 16) (hv : v < 16 ^ n) :
    hexDigits (n + 1) (d * 16 ^ n + v) = hexDigit d :: hexDigits n v := by
  have hdigit : (d * 16 ^ n + v) / 16 ^ n % 16 = d := by
    rw [Nat.add_comm, Nat.add_mul_div_right _ _ (by positivity), Nat.div_eq_of_lt hv, Nat.zero_add, Nat.mod_eq_of_lt hd]
  rw [hexDigits, hdigit, hexDigits_mul_add]

/-- Reading `n` digits onto `acc` succeeds exactly on the digits of a number below `16 ^ n`, which is put after
`acc`. -/
theorem readHex_eq_some_iff {n acc x : Nat} {cs rest : List Char} : readHex n acc cs = some (x, rest) ↔
    ∃ v < 16 ^ n, x = acc * 16 ^ n + v ∧ cs = hexDigits n v ++ rest := by
  induction n generalizing acc cs with
  | zero => simp [readHex, hexDigits, eq_comm]
  | succ n ih =>
    cases cs with
    | nil => simp [readHex, hexDigits]
    | cons c cs =>
      simp only [readHex, Option.bind_eq_some_iff, hexValue_eq_some_iff, ih]
      constructor
      · rintro ⟨d, ⟨hd, rfl⟩, v, hv, rfl, rfl⟩
        refine ⟨d * 16 ^ n + v, ?_, by ring, by rw [hexDigits_succ hd hv]; rfl⟩
        calc d * 16 ^ n + v < (d + 1) * 16 ^ n := by rw [Nat.succ_mul]; exact Nat.add_lt_add_left hv _
          _ ≤ 16 * 16 ^ n := Nat.mul_le_mul_right _ hd
          _ = 16 ^ (n + 1) := (pow_succ' 16 n).symm
      · rintro ⟨V, hV, rfl, hcs⟩
        have hd : V / 16 ^ n < 16 := Nat.div_lt_of_lt_mul (by rwa [← pow_succ])
        have hv : V % 16 ^ n < 16 ^ n := Nat.mod_lt _ (by positivity)
        have hsplit : V / 16 ^ n * 16 ^ n + V % 16 ^ n = V := Nat.div_add_mod' V _
        rw [← hsplit, hexDigits_succ hd hv, List.cons_append, List.cons.injEq] at hcs
        exact ⟨V / 16 ^ n, ⟨hd, hcs.1⟩, V % 16 ^ n, hv, by rw [Nat.add_mul, Nat.add_assoc, hsplit]; ring, hcs.2⟩

/-- Reading a field of `n` digits and at most `4 n` bits succeeds exactly on the digits of its value. -/
theorem readField_eq_some_iff {n w : Nat} (hw : 2 ^ w ≤ 16 ^ n) {cs rest : List Char} {b : BitVec w} :
    readField n w cs = some (b, rest) ↔ cs = hexDigits n b.toNat ++ rest := by
  simp only [readField, Option.bind_eq_some_iff, Prod.exists, readHex_eq_some_iff, Nat.zero_mul, Nat.zero_add]
  constructor
  · rintro ⟨x, rest', ⟨v, -, rfl, rfl⟩, hif⟩
    split at hif
    case isTrue hlt =>
      cases hif
      rw [BitVec.toNat_ofNat, Nat.mod_eq_of_lt hlt]
    case isFalse => cases hif
  · rintro rfl
    exact ⟨b.toNat, rest, ⟨b.toNat, b.isLt.trans_le hw, rfl, rfl⟩, by simp [b.isLt]⟩

@[simp] theorem readSep_eq_some_iff {cs rest : List Char} : readSep cs = some rest ↔ cs = '_' :: rest := by
  unfold readSep
  split
  · simp
  case h_2 hne => exact ⟨(nomatch ·), fun h => absurd h (hne rest)⟩

theorem readEnd_eq_some_iff {cs : List Char} {u : Unit} : readEnd cs = some u ↔ cs = [] := by
  cases cs <;> simp [readEnd]

/-- The text of three fields, the form of a narrow pattern (R42). -/
def narrowText {ew sw : Nat} (eDigits mDigits : Nat) (t : Fields ew sw) : List Char :=
  hexDigits 1 t.s.toNat ++ '_' :: hexDigits eDigits t.e.toNat ++ '_' :: hexDigits mDigits t.m.toNat

theorem readNarrow_eq_some_iff {ew sw eDigits mDigits : Nat} (he : 2 ^ ew ≤ 16 ^ eDigits) (hm : 2 ^ sw ≤ 16 ^ mDigits)
    {cs : List Char} {t : Fields ew sw} :
    readNarrow ew sw eDigits mDigits cs = some t ↔ cs = narrowText eDigits mDigits t := by
  have hs : 2 ^ 1 ≤ 16 ^ 1 := by decide
  simp only [readNarrow, Option.bind_eq_bind, Option.bind_eq_some_iff, Prod.exists, readSep_eq_some_iff,
    readField_eq_some_iff hs, readField_eq_some_iff he, readField_eq_some_iff hm, readEnd_eq_some_iff]
  constructor
  · rintro ⟨s, _, rfl, _, rfl, e, _, rfl, _, rfl, m, _, rfl, -, rfl, ht⟩
    cases ht
    simp [narrowText]
  · rintro rfl
    exact ⟨t.s, _, List.append_assoc .., _, rfl, t.e, _, rfl, _, rfl, t.m, [], by simp, (), rfl, rfl⟩

/-- The reader of a format accepts exactly the printed texts (log entry 6). -/
theorem parseTextF32_eq_some_iff {cs : List Char} {v : F32} : parseTextF32 cs = some v ↔ cs = toTextF32 v := by
  rw [parseTextF32, Option.map_eq_some_iff]
  simp only [readNarrow_eq_some_iff (ew := 8) (sw := 23) (eDigits := 2) (mDigits := 6) (by decide) (by decide)]
  constructor
  · rintro ⟨t, rfl, rfl⟩
    rw [toTextF32, unpackF32_packF32, narrowText]
  · rintro rfl
    exact ⟨unpackF32 v, rfl, packF32_unpackF32 v⟩

theorem parseTextF64_eq_some_iff {cs : List Char} {v : F64} : parseTextF64 cs = some v ↔ cs = toTextF64 v := by
  rw [parseTextF64, Option.map_eq_some_iff]
  simp only [readNarrow_eq_some_iff (ew := 11) (sw := 52) (eDigits := 3) (mDigits := 13) (by decide) (by decide)]
  constructor
  · rintro ⟨t, rfl, rfl⟩
    rw [toTextF64, unpackF64_packF64, narrowText]
  · rintro rfl
    exact ⟨unpackF64 v, rfl, packF64_unpackF64 v⟩

/-! The integer bit and the fraction of an F80 significand, which has a field of the text for each (R42). -/

theorem fraction_append (i : BitVec 1) (f : BitVec 63) : fraction (i ++ f) = f := BitVec.extractLsb'_append_eq_right

theorem toNat_intBit_append (i : BitVec 1) (f : BitVec 63) : (intBit (i ++ f)).toNat = i.toNat := by
  rw [intBit, BitVec.getLsbD_append, if_neg (lt_irrefl 63)]
  revert i; decide

theorem append_fraction (m : BitVec 64) : m.extractLsb' 63 1 ++ fraction m = m := by
  rw [fraction, BitVec.extractLsb'_append_extractLsb'_eq_extractLsb' (Nat.zero_add 63).symm, BitVec.extractLsb'_eq_self]

theorem parseTextF80_eq_some_iff {cs : List Char} {v : F80} : parseTextF80 cs = some v ↔ cs = toTextF80 v := by
  have h1 : 2 ^ 1 ≤ 16 ^ 1 := by decide
  have h15 : 2 ^ 15 ≤ 16 ^ 4 := by decide
  have h63 : 2 ^ 63 ≤ 16 ^ 16 := by decide
  simp only [parseTextF80, Option.bind_eq_bind, Option.bind_eq_some_iff, Prod.exists, readSep_eq_some_iff,
    readField_eq_some_iff h1, readField_eq_some_iff h15, readField_eq_some_iff h63, readEnd_eq_some_iff]
  constructor
  · rintro ⟨s, _, rfl, _, rfl, e, _, rfl, _, rfl, i, _, rfl, _, rfl, f, _, rfl, -, rfl, ht⟩
    cases ht
    simp [toTextF80, fraction_append, toNat_intBit_append]
  · rintro rfl
    have hm := append_fraction (unpackF80 v).m
    have hint := toNat_intBit_append ((unpackF80 v).m.extractLsb' 63 1) (fraction (unpackF80 v).m)
    rw [hm] at hint
    refine ⟨(unpackF80 v).s, _, by rw [toTextF80, hint, List.append_assoc, List.append_assoc]; rfl, _, rfl,
      (unpackF80 v).e, _, rfl, _, rfl, (unpackF80 v).m.extractLsb' 63 1, _, rfl, _, rfl,
      fraction (unpackF80 v).m, [], (List.append_nil _).symm, (), rfl, ?_⟩
    rw [hm]
    exact congrArg some (packF80_unpackF80 v)

/-- Settles O32: a printed text is accepted as the pattern it was printed from. -/
theorem textFormsReadBack : Obligations.TextFormsReadBack :=
  ⟨fun b => ⟨parseTextF32_eq_some_iff.mpr rfl, by simp [toTextF32]⟩,
    fun b => ⟨parseTextF64_eq_some_iff.mpr rfl, by simp [toTextF64]⟩,
    fun b => ⟨parseTextF80_eq_some_iff.mpr rfl, by simp [toTextF80]⟩⟩

end Sys2Proof.Machine

/-! ### The assembler (R37, R41) -/

namespace Sys2Proof

theorem asmIndex_of_lt {n : Nat} (h : n < 8) : asmIndex (some n) = some (BitVec.ofNat 3 n) := if_pos h
theorem asmIndex_of_ge {n : Nat} (h : 8 ≤ n) : asmIndex (some n) = none := if_neg (Nat.not_lt.mpr h)

theorem asmIndex_toNat (i : StackIndex) : asmIndex (some i.toNat) = some i := by
  rw [asmIndex_of_lt i.isLt, BitVec.ofNat_toNat, BitVec.setWidth_eq]

theorem isSome_asmIndex (i : Option Nat) : (asmIndex i).isSome = asmIndexOk i := by
  cases i with
  | none => rfl
  | some n => by_cases h : n < 8 <;> simp [asmIndex, asmIndexOk, h]

section Value
variable {w : Nat} {parse : List Char → Option (BitVec w)}

theorem asmValue_pattern (v : BitVec w) : asmValue w parse (.pattern v.toNat) = some v := by
  simp [asmValue, v.isLt]

theorem asmValue_pattern_of_ge {n : Nat} (h : 2 ^ w ≤ n) : asmValue w parse (.pattern n) = none :=
  if_neg (Nat.not_lt.mpr h)

theorem asmValue_text {cs : List Char} {v : BitVec w} (h : parse cs = some v) :
    asmValue w parse (.text cs) = some v := h

theorem isSome_asmValue (v : AsmValue) : (asmValue w parse v).isSome = asmValueOk w parse v := by
  cases v with
  | pattern n => by_cases h : n < 2 ^ w <;> simp [asmValue, asmValueOk, h]
  | text cs => rfl

end Value

/-- A line assembles exactly when it is well formed (R41). -/
theorem isSome_assemble (a : Asm) : (assemble a).isSome = a.wellFormed := by
  cases a with
  | loadF32 v | loadF64 v | loadF80 v | addF32 v | addF64 v | addF80 v =>
    exact Option.isSome_map.trans (isSome_asmValue v)
  | loadFromStack i | addStack i | addPop i => exact Option.isSome_map.trans (isSome_asmIndex i)
  | storeAndPopF32 | storeAndPopF64 | storeAndPopF80 => rfl

end Sys2Proof

namespace Sys2Proof.Machine

/-- Settles O5: each kind of line by its index or its value, which the reader takes from the printed text. -/
theorem assemblerAcceptsWellFormedLines : Obligations.AssemblerAcceptsWellFormedLines := by
  refine ⟨isSome_assemble, rfl, rfl, rfl, rfl, rfl, rfl, fun i => ?_, fun n hn => ?_, fun v => ?_, fun v => ?_,
    fun v => ?_, fun n => ⟨fun hn => ?_, fun hn => ?_, fun hn => ?_⟩,
    fun cs => ⟨fun v => parseTextF32_eq_some_iff.mp, fun v => parseTextF64_eq_some_iff.mp,
      fun v => parseTextF80_eq_some_iff.mp⟩⟩
  · simp [assemble, asmIndex_toNat]
  · simp [assemble, asmIndex_of_ge hn]
  · simp [assemble, asmValue_pattern, asmValue_text (parseTextF32_eq_some_iff.mpr (Eq.refl (toTextF32 v)))]
  · simp [assemble, asmValue_pattern, asmValue_text (parseTextF64_eq_some_iff.mpr (Eq.refl (toTextF64 v)))]
  · simp [assemble, asmValue_pattern, asmValue_text (parseTextF80_eq_some_iff.mpr (Eq.refl (toTextF80 v)))]
  · simp [assemble, asmValue_pattern_of_ge hn]
  · simp [assemble, asmValue_pattern_of_ge hn]
  · simp [assemble, asmValue_pattern_of_ge hn]

end Sys2Proof.Machine
end

section
/-! ### The adder on ordered operands (R102 to R107) -/

namespace Sys2Proof.Machine

/-- The integer bit is set from `2^63` on (R32). -/
theorem intBit_eq_true_iff {m : BitVec 64} : intBit m = true ↔ 2 ^ 63 ≤ m.toNat := by
  rw [intBit, ← BitVec.msb_eq_getLsbD_last, BitVec.msb_eq_decide, decide_eq_true_iff]

/-- Setting the integer bit of a number that has it changes nothing. -/
theorem or_two_pow_63 {x : Nat} (h : 2 ^ 63 ≤ x) (hx : x < 2 ^ 64) : x ||| 2 ^ 63 = x := by
  have hm : (BitVec.ofNat 64 x).toNat = x := by rw [BitVec.toNat_ofNat, Nat.mod_eq_of_lt hx]
  have hor := toNat_or_intBit (intBit_eq_true_iff.mpr (hm.symm ▸ h))
  rwa [hm] at hor

/-- The exponents below the largest are those of R110's first condition denied. -/
theorem toNat_lt_max_iff {e : BitVec 15} : e.toNat < 0x7FFF ↔ e ≠ 0x7FFF := by
  bv_omega

/-- `a` is the bigger operand, or as big as `b` (R103; equal exponents by decision D12). -/
def NotSmaller (a b : Fields 15 64) : Prop :=
  b.e.toNat < a.e.toNat ∨ (b.e = a.e ∧ b.m.toNat ≤ a.m.toNat)

/-- `a` is strictly the bigger operand. -/
def Bigger (a b : Fields 15 64) : Prop :=
  b.e.toNat < a.e.toNat ∨ (b.e = a.e ∧ b.m.toNat < a.m.toNat)

/-- Of two operands one is bigger, or they have one magnitude. -/
theorem bigger_trichotomy (a b : Fields 15 64) : Bigger a b ∨ Bigger b a ∨ (a.e = b.e ∧ a.m = b.m) := by
  simp only [Bigger, ← BitVec.toNat_inj]
  omega

theorem not_bigger_iff {a b : Fields 15 64} : ¬ Bigger b a ↔ NotSmaller a b := by
  simp only [NotSmaller, Bigger, ← BitVec.toNat_inj]
  omega

theorem Bigger.notSmaller {a b : Fields 15 64} (h : Bigger a b) : NotSmaller a b :=
  h.imp id (And.imp_right Nat.le_of_lt)

theorem NotSmaller.toNat_e_le {a b : Fields 15 64} (h : NotSmaller a b) : b.e.toNat ≤ a.e.toNat := by
  obtain he | ⟨he, -⟩ := h
  · exact he.le
  · exact he ▸ le_rfl

/-- Below a finite exponent all exponents are finite. -/
theorem NotSmaller.ne_max {a b : Fields 15 64} (h : NotSmaller a b) (ha : a.e ≠ 0x7FFF) : b.e ≠ 0x7FFF :=
  toNat_lt_max_iff.mp (h.toNat_e_le.trans_lt (toNat_lt_max_iff.mpr ha))

theorem swapOperands_eq_true_iff {a b : Fields 15 64} : swapOperands a b = true ↔ Bigger b a := by
  simp [swapOperands, Bigger, ← BitVec.toNat_inj]

theorem swapOperands_of_notSmaller {a b : Fields 15 64} (h : NotSmaller a b) : swapOperands a b = false := by
  rw [Bool.eq_false_iff, ne_eq, swapOperands_eq_true_iff]
  exact not_bigger_iff.mpr h

theorem orderOperands_of_notSmaller {a b : Fields 15 64} (h : NotSmaller a b) (sub : BitVec 1) :
    orderOperands a b sub = ⟨a.s, a.e.toNat, a.m.toNat, a.e.toNat - b.e.toNat, b.m.toNat⟩ := by
  rw [orderOperands, swapOperands_of_notSmaller h]
  rfl

theorem orderOperands_of_bigger {a b : Fields 15 64} (h : Bigger b a) (sub : BitVec 1) :
    orderOperands a b sub = ⟨b.s ^^^ sub, b.e.toNat, b.m.toNat, b.e.toNat - a.e.toNat, a.m.toNat⟩ := by
  rw [orderOperands, swapOperands_eq_true_iff.mpr h]
  rfl

/-- The clamp of R104 is out of sight: from 64 places on a significand is shifted out whole. -/
theorem shiftRight_min_64 (m : BitVec 64) (d : Nat) : m.toNat >>> min d 64 = m.toNat / 2 ^ d := by
  rw [Nat.shiftRight_eq_div_pow]
  obtain hd | hd := le_total d 64
  · rw [min_eq_left hd]
  · have hlt : m.toNat < 2 ^ d := m.isLt.trans_le (Nat.pow_le_pow_right (by decide) hd)
    rw [min_eq_right hd, Nat.div_eq_of_lt m.isLt, Nat.div_eq_of_lt hlt]

/-- The adder with `a` the bigger operand (R103, R104). -/
theorem addFields_of_notSmaller {a b : Fields 15 64} {sub : BitVec 1} (h : NotSmaller a b) (ha : a.e ≠ 0x7FFF) :
    addFields a b sub =
      if effectiveSub a b sub = 0 then
        addMagnitudes a.s a.e.toNat a.m.toNat (b.m.toNat / 2 ^ (a.e.toNat - b.e.toNat))
      else some (subMagnitudes a.s a.e.toNat a.m.toNat (b.m.toNat / 2 ^ (a.e.toNat - b.e.toNat))) := by
  rw [addFields, if_neg (not_or.mpr ⟨ha, h.ne_max ha⟩), orderOperands_of_notSmaller h]
  simp only [OrderedOperands.aligned, shiftRight_min_64]

theorem addFields_of_max {a b : Fields 15 64} {sub : BitVec 1} (h : a.e = 0x7FFF ∨ b.e = 0x7FFF) :
    addFields a b sub = none := if_pos h

/-! Effective addition (R105): its result depends on the sum of the aligned significands. -/

theorem addMagnitudes_of_lt {sign : BitVec 1} {exp big aligned : Nat} (hsum : big + aligned < 2 ^ 64)
    (hexp : exp ≠ 0x7FFF) : addMagnitudes sign exp big aligned =
      some ⟨sign, BitVec.ofNat 15 exp, BitVec.ofNat 64 (big + aligned)⟩ := by
  simp only [addMagnitudes, if_neg (Nat.not_le.mpr hsum), if_neg hexp]

/-- On a carry the sum is halved, truncating: the bit set into the top is the carry itself. -/
theorem addMagnitudes_of_carry_half {sign : BitVec 1} {exp big aligned : Nat} (hcarry : 2 ^ 64 ≤ big + aligned)
    (hlt : big + aligned < 2 ^ 65) (hexp : exp + 1 ≠ 0x7FFF) : addMagnitudes sign exp big aligned =
      some ⟨sign, BitVec.ofNat 15 (exp + 1), BitVec.ofNat 64 ((big + aligned) / 2)⟩ := by
  rw [addMagnitudes_of_carry hcarry hexp, Nat.shiftRight_one, or_two_pow_63 (by omega) (by omega)]

/-- R110 (ii), for a finite exponent. -/
theorem addMagnitudes_eq_none_iff {sign : BitVec 1} {exp big aligned : Nat} (hexp : exp < 0x7FFF) :
    addMagnitudes sign exp big aligned = none ↔ exp = 0x7FFE ∧ 2 ^ 64 ≤ big + aligned := by
  by_cases hsum : 2 ^ 64 ≤ big + aligned
  · simp only [addMagnitudes, ite_eq_left_iff, reduceCtorEq, imp_false, not_not, hsum, and_true]
    exact ⟨Nat.succ.inj, congrArg Nat.succ⟩
  · rw [addMagnitudes_of_lt (Nat.lt_of_not_le hsum) hexp.ne]
    exact iff_of_false (Option.some_ne_none _) (fun h => hsum h.2)

theorem addMagnitudes_congr {sign : BitVec 1} {exp big aligned big' aligned' : Nat}
    (h : big + aligned = big' + aligned') :
    addMagnitudes sign exp big aligned = addMagnitudes sign exp big' aligned' := by
  rw [addMagnitudes, h, addMagnitudes]

/-- Effective addition with the operands in either order: each significand is shifted by what its exponent lacks. -/
theorem addFields_of_effectiveAddition {a b : Fields 15 64} {sub : BitVec 1} (hsub : effectiveSub a b sub = 0)
    (ha : a.e ≠ 0x7FFF) (hb : b.e ≠ 0x7FFF) :
    addFields a b sub = addMagnitudes (orderOperands a b sub).sign (max a.e.toNat b.e.toNat)
      (a.m.toNat / 2 ^ (b.e.toNat - a.e.toNat)) (b.m.toNat / 2 ^ (a.e.toNat - b.e.toNat)) := by
  rw [addFields, if_neg (not_or.mpr ⟨ha, hb⟩), if_pos hsub]
  cases hswap : swapOperands a b with
  | false =>
    have hle : b.e.toNat ≤ a.e.toNat := by
      rw [Bool.eq_false_iff, ne_eq, swapOperands_eq_true_iff] at hswap
      exact (not_bigger_iff.mp hswap).toNat_e_le
    rw [max_eq_left hle, Nat.sub_eq_zero_of_le hle]
    simp only [orderOperands, hswap, Bool.false_eq_true, if_false, OrderedOperands.aligned, shiftRight_min_64,
      pow_zero, Nat.div_one]
  | true =>
    have hbig := swapOperands_eq_true_iff.mp hswap
    have hle := hbig.notSmaller.toNat_e_le
    rw [max_eq_right hle, Nat.sub_eq_zero_of_le hle, orderOperands_of_bigger hbig]
    simp only [OrderedOperands.aligned, shiftRight_min_64, pow_zero, Nat.div_one]
    exact addMagnitudes_congr (Nat.add_comm _ _)

/-! Effective subtraction (R106, R107). -/

theorem subMagnitudes_of_zero {sign : BitVec 1} {exp big aligned : Nat} (h : wrappedDifference big aligned = 0) :
    subMagnitudes sign exp big aligned = zeroFields 15 64 sign := by
  simp only [subMagnitudes, if_pos h]

/-- The clamped shift of R107 leaves the top bit set, or the exponent at 0. -/
theorem clampedShift_bounds {d exp : Nat} (h0 : d ≠ 0) (hd : d < 2 ^ 64) :
    d * 2 ^ min (clz64 d) exp < 2 ^ 64 ∧ (min (clz64 d) exp < exp → 2 ^ 63 ≤ d * 2 ^ min (clz64 d) exp) := by
  have hlog : d.log2 < 64 := (Nat.log2_lt h0).mpr hd
  refine ⟨?_, fun hn => ?_⟩
  · calc d * 2 ^ min (clz64 d) exp < 2 ^ (d.log2 + 1) * 2 ^ min (clz64 d) exp := by
          exact Nat.mul_lt_mul_of_pos_right Nat.lt_log2_self (by positivity)
      _ ≤ 2 ^ (d.log2 + 1) * 2 ^ (63 - d.log2) :=
          Nat.mul_le_mul_left _ (Nat.pow_le_pow_right (by decide) (min_le_left _ _))
      _ = 2 ^ 64 := by rw [← pow_add]; congr 1; omega
  · have hmin : min (clz64 d) exp = 63 - d.log2 := by unfold clz64 at hn ⊢; omega
    calc 2 ^ 63 = 2 ^ d.log2 * 2 ^ (63 - d.log2) := by rw [← pow_add]; congr 1; omega
      _ ≤ d * 2 ^ min (clz64 d) exp := by rw [hmin]; exact Nat.mul_le_mul_right _ (Nat.log2_self_le h0)

theorem subMagnitudes_of_ne_zero {sign : BitVec 1} {exp big aligned : Nat} (h : wrappedDifference big aligned ≠ 0) :
    subMagnitudes sign exp big aligned =
      ⟨sign, BitVec.ofNat 15 (exp - min (clz64 (wrappedDifference big aligned)) exp),
        BitVec.ofNat 64 (wrappedDifference big aligned * 2 ^ min (clz64 (wrappedDifference big aligned)) exp)⟩ := by
  simp only [subMagnitudes, if_neg h, Nat.shiftLeft_eq]

/-! ### The adder's obligations on patterns -/

/-- Settles O47: without a maximum exponent only an effective addition can fail, by a carry at the largest exponent. -/
theorem adderHasNoResultExactlyWhere : Obligations.AdderHasNoResultExactlyWhere := by
  intro a b sub
  dsimp only
  rw [add80, Option.map_eq_none_iff]
  by_cases hmax : (unpackF80 a).e = 0x7FFF ∨ (unpackF80 b).e = 0x7FFF
  · exact iff_of_true (addFields_of_max hmax) (.inl hmax)
  obtain ⟨ha, hb⟩ := not_or.mp hmax
  by_cases hsub : effectiveSub (unpackF80 a) (unpackF80 b) sub = 0
  · have hexp : max (unpackF80 a).e.toNat (unpackF80 b).e.toNat < 0x7FFF :=
      max_lt (toNat_lt_max_iff.mpr ha) (toNat_lt_max_iff.mpr hb)
    rw [addFields_of_effectiveAddition hsub ha hb, addMagnitudes_eq_none_iff hexp]
    simp only [hmax, false_or]
    exact ⟨fun h => ⟨hsub, h⟩, And.right⟩
  · rw [addFields, if_neg hmax]
    simp only [if_neg hsub]
    exact iff_of_false (Option.some_ne_none _) (not_or.mpr ⟨hmax, fun h => hsub h.1⟩)

/-- Settles O48: the two cases of an effective addition. -/
theorem adderAddsAlignedMagnitudes : Obligations.AdderAddsAlignedMagnitudes := by
  intro a b sub A B sum ha hbig hsub
  have hadd : add80 a b sub = (addMagnitudes A.s A.e.toNat A.m.toNat (B.m.toNat / 2 ^ (A.e.toNat - B.e.toNat))).map
      packF80 := by
    have hzero : effectiveSub A B sub = 0 := hsub
    rw [add80, addFields_of_notSmaller hbig ha, if_pos hzero]
  have hexp : A.e.toNat < 0x7FFF := toNat_lt_max_iff.mpr ha
  refine ⟨fun hlt => ?_, fun hcarry hlast => ?_⟩
  · rw [hadd, addMagnitudes_of_lt hlt hexp.ne, BitVec.ofNat_toNat, BitVec.setWidth_eq]
    rfl
  · have hlt : sum < 2 ^ 65 := by
      have := Nat.div_le_self B.m.toNat (2 ^ (A.e.toNat - B.e.toNat))
      have := A.m.isLt
      have := B.m.isLt
      omega
    have hnext : A.e.toNat + 1 ≠ 0x7FFF := by bv_omega
    rw [hadd, addMagnitudes_of_carry_half hcarry hlt hnext, BitVec.ofNat_add, BitVec.ofNat_toNat, BitVec.setWidth_eq]
    rfl

/-- Settles O49: the two cases of an effective subtraction. -/
theorem adderSubtractsAndNormalises : Obligations.AdderSubtractsAndNormalises := by
  intro a b sub A B d ha hbig hsub
  have hadd : add80 a b sub =
      some (packF80 (subMagnitudes A.s A.e.toNat A.m.toNat (B.m.toNat / 2 ^ (A.e.toNat - B.e.toNat)))) := by
    have hne : effectiveSub A B sub ≠ 0 := by rw [effectiveSub, hsub]; decide
    rw [add80, addFields_of_notSmaller hbig ha, if_neg hne, Option.map_some]
  rw [hadd]
  refine ⟨fun h0 => ?_, fun h0 => ?_⟩
  · rw [subMagnitudes_of_zero h0]; rfl
  · obtain ⟨hlt, htop⟩ := clampedShift_bounds (exp := A.e.toNat) h0 (Nat.mod_lt _ (by decide))
    refine ⟨min (clz64 d) A.e.toNat, min_le_right _ _, hlt, htop, ?_⟩
    rw [subMagnitudes_of_ne_zero h0]
    rfl

/-! ### The operands the other way round (R103, R111) -/

/-- A pattern's fields with the sign flipped where `sub` is 1 (decision D13). -/
def flipSign (sub : BitVec 1) (t : Fields 15 64) : Fields 15 64 := { t with s := t.s ^^^ sub }

@[simp] theorem flipSign_zero (t : Fields 15 64) : flipSign 0#1 t = t := by simp [flipSign]

theorem flipSign_one (t : Fields 15 64) : flipSign 1 t = { t with s := ~~~t.s } := by
  rw [flipSign, ← BitVec.xor_allOnes]
  rfl

theorem addMagnitudes_flipSign (sign sub : BitVec 1) (exp big aligned : Nat) :
    addMagnitudes (sign ^^^ sub) exp big aligned = (addMagnitudes sign exp big aligned).map (flipSign sub) := by
  simp only [addMagnitudes, apply_ite (Option.map (flipSign sub)), Option.map_none, Option.map_some, flipSign]

theorem subMagnitudes_flipSign (sign sub : BitVec 1) (exp big aligned : Nat) :
    subMagnitudes (sign ^^^ sub) exp big aligned = flipSign sub (subMagnitudes sign exp big aligned) := by
  by_cases h : wrappedDifference big aligned = 0
  · rw [subMagnitudes_of_zero h, subMagnitudes_of_zero h]
    rfl
  · rw [subMagnitudes_of_ne_zero h, subMagnitudes_of_ne_zero h]
    rfl

theorem effectiveSub_comm (a b : Fields 15 64) (sub : BitVec 1) : effectiveSub a b sub = effectiveSub b a sub := by
  rw [effectiveSub, effectiveSub, BitVec.xor_assoc, BitVec.xor_comm a.s, BitVec.xor_assoc]

/-- With `a` strictly the bigger operand, the other order changes the sign under `sub = 1` and nothing else. -/
theorem addFields_swap {a b : Fields 15 64} (h : Bigger a b) (sub : BitVec 1) :
    addFields b a sub = (addFields a b sub).map (flipSign sub) := by
  by_cases hmax : a.e = 0x7FFF ∨ b.e = 0x7FFF
  · rw [addFields_of_max hmax, addFields_of_max hmax.symm, Option.map_none]
  · rw [addFields, addFields, if_neg hmax, if_neg (mt Or.symm hmax), orderOperands_of_bigger h,
      orderOperands_of_notSmaller h.notSmaller, effectiveSub_comm b a]
    simp only [OrderedOperands.aligned, addMagnitudes_flipSign, subMagnitudes_flipSign,
      apply_ite (Option.map (flipSign sub)), Option.map_some]

/-- `addFields_swap` on packed patterns. -/
theorem add80_swap {a b : F80} (h : Bigger (unpackF80 a) (unpackF80 b)) (sub : BitVec 1) :
    add80 b a sub = (add80 a b sub).map fun r => packF80 (flipSign sub (unpackF80 r)) := by
  simp only [add80, addFields_swap h, Option.map_map, Function.comp_def, unpackF80_packF80]

theorem add80_comm_of_bigger {a b : F80} (h : Bigger (unpackF80 a) (unpackF80 b)) : add80 a b 0 = add80 b a 0 := by
  rw [add80_swap h 0]
  simp

/-- Operands of one magnitude and opposite signs cancel: the zero has the first one's sign (R106). -/
theorem addFields_cancel {a b : Fields 15 64} (ha : a.e ≠ 0x7FFF) (he : a.e = b.e) (hm : a.m = b.m)
    (hsub : effectiveSub a b 0 ≠ 0) : addFields a b 0 = some ⟨a.s, 0, 0⟩ := by
  have hbig : NotSmaller a b := .inr ⟨he.symm, hm ▸ le_rfl⟩
  have hzero : wrappedDifference a.m.toNat (b.m.toNat / 2 ^ (a.e.toNat - b.e.toNat)) = 0 := by
    rw [wrappedDifference, he, hm, Nat.sub_self, pow_zero, Nat.div_one, Nat.add_sub_cancel, Nat.mod_self]
  rw [addFields_of_notSmaller hbig ha, if_neg hsub, subMagnitudes_of_zero hzero, zeroFields]

/-- Settles O50: of two operands one is bigger, or they are equal, or they cancel. -/
theorem adderSwapsTheOperands : Obligations.AdderSwapsTheOperands := by
  refine ⟨fun a b sub hbig => add80_swap hbig sub, fun a b => ?_⟩
  obtain h | h | ⟨he, hm⟩ := bigger_trichotomy (unpackF80 a) (unpackF80 b)
  · exact .inl (add80_comm_of_bigger h)
  · exact .inl (add80_comm_of_bigger h).symm
  by_cases hmax : (unpackF80 a).e = 0x7FFF
  · have hmax' : (unpackF80 b).e = 0x7FFF := he ▸ hmax
    exact .inl (by rw [add80, add80, addFields_of_max (.inl hmax), addFields_of_max (.inl hmax')])
  by_cases hsub : effectiveSub (unpackF80 a) (unpackF80 b) 0 = 0
  · have hs : (unpackF80 a).s = (unpackF80 b).s := by simpa [effectiveSub] using hsub
    have hab : unpackF80 a = unpackF80 b := by
      cases ha : unpackF80 a
      cases hb : unpackF80 b
      simp_all
    exact .inl (by rw [add80, add80, hab])
  · refine .inr ⟨by rw [add80, addFields_cancel hmax he hm hsub]; rfl, ?_⟩
    rw [effectiveSub_comm] at hsub
    rw [add80, addFields_cancel (he ▸ hmax) he.symm hm.symm hsub]
    rfl

/-! ### Zero as an operand (R111) -/

/-- A significand with its integer bit, or at exponent 0, is not shifted by R107. -/
theorem clampedShift_eq_zero {x : Fields 15 64} (h : x.e = 0 ∨ intBit x.m = true) :
    min (clz64 x.m.toNat) x.e.toNat = 0 := by
  obtain he | hint := h
  · rw [he]; exact Nat.min_zero _
  · have htop := intBit_eq_true_iff.mp hint
    have hlog : 63 ≤ x.m.toNat.log2 := (Nat.le_log2 (by omega)).mpr htop
    rw [clz64, Nat.sub_eq_zero_of_le hlog, Nat.zero_min]

/-- A zero operand leaves the other one alone, be it added or subtracted, unless R107 would normalise that one. -/
theorem addFields_zero {x : Fields 15 64} (hmax : x.e ≠ 0x7FFF) (hx : x.e = 0 ∨ intBit x.m = true) (z sub : BitVec 1) :
    addFields x ⟨z, 0, 0⟩ sub = some x := by
  have hbig : NotSmaller x ⟨z, 0, 0⟩ := by
    simp only [NotSmaller, ← BitVec.toNat_inj, BitVec.ofNat_eq_ofNat, BitVec.toNat_ofNat, Nat.zero_mod]
    omega
  have hdiff : wrappedDifference x.m.toNat 0 = x.m.toNat := by
    rw [wrappedDifference, Nat.sub_zero, Nat.add_mod_left, Nat.mod_eq_of_lt x.m.isLt]
  rw [addFields_of_notSmaller hbig hmax]
  simp only [BitVec.ofNat_eq_ofNat, BitVec.toNat_ofNat, Nat.zero_mod, Nat.zero_div]
  split
  case isTrue =>
    rw [addMagnitudes_of_lt x.m.isLt (toNat_lt_max_iff.mpr hmax).ne]
    simp
  case isFalse =>
    by_cases h0 : x.m.toNat = 0
    · have hm : x.m = 0 := BitVec.eq_of_toNat_eq h0
      have he : x.e = 0 := hx.resolve_right (by rw [hm]; decide)
      rw [subMagnitudes_of_zero (hdiff.trans h0), zeroFields, ← he, ← hm]
    · have hne : wrappedDifference x.m.toNat 0 ≠ 0 := fun h => h0 (hdiff.symm.trans h)
      rw [subMagnitudes_of_ne_zero hne, hdiff, clampedShift_eq_zero hx]
      simp

theorem add80_zero {x : F80} (hmax : (unpackF80 x).e ≠ 0x7FFF)
    (hx : (unpackF80 x).e = 0 ∨ intBit (unpackF80 x).m = true) (z sub : BitVec 1) :
    add80 x (packF80 ⟨z, 0, 0⟩) sub = some x := by
  rw [add80, unpackF80_packF80, addFields_zero hmax hx, Option.map_some, packF80_unpackF80]

theorem bigger_zero {x : Fields 15 64} (h : x.e ≠ 0 ∨ x.m ≠ 0) (z : BitVec 1) : Bigger x ⟨z, 0, 0⟩ := by
  by_cases he : x.e = 0
  · have hm : x.m ≠ 0 := h.resolve_left (not_not.mpr he)
    exact .inr ⟨he.symm, by bv_omega⟩
  · exact .inl (by bv_omega)

/-- Settles O51: a zero is the smaller operand, and a canonical one needs no normalisation. -/
theorem zeroIsNeutralForCanonicalOperands : Obligations.ZeroIsNeutralForCanonicalOperands := by
  intro x z
  obtain ⟨hzero, hdenormal, -, hnormal, -⟩ := classifyFields80_table (unpackF80 x)
  refine ⟨fun hx => ?_, fun hx => ?_⟩
  · have hfinite : (unpackF80 x).e ≠ 0x7FFF ∧ ((unpackF80 x).e = 0 ∨ intBit (unpackF80 x).m = true) ∧
        Bigger (unpackF80 x) ⟨z, 0, 0⟩ := by
      obtain hx | hx := hx
      · obtain ⟨he, hm, -⟩ := hdenormal.mp hx
        exact ⟨by rw [he]; decide, .inl he, bigger_zero (.inr hm) z⟩
      · obtain ⟨he, hmax, hint⟩ := hnormal.mp hx
        exact ⟨hmax, .inr hint, bigger_zero (.inl he) z⟩
    obtain ⟨hmax, hint, hbig⟩ := hfinite
    have hadd (sub : BitVec 1) := add80_zero hmax hint z sub
    have hswap (sub : BitVec 1) := add80_swap (a := x) (b := packF80 ⟨z, 0, 0⟩) (by rwa [unpackF80_packF80]) sub
    refine ⟨hadd 0, ?_, ?_⟩
    · rw [hswap, hadd]; simp
    · rw [hswap, hadd, Option.map_some, flipSign_one]
  · obtain ⟨he, hm⟩ := hzero.mp hx
    exact add80_zero (by rw [he]; decide) (.inl he) z 0

end Sys2Proof.Machine
end

section
/-! ### The number of an F80 pattern (R54), as a multiple of its last place -/

namespace Sys2Proof.Machine

/-- The unit of the last place of a significand at exponent field `e` (R54): `2^(e - 16383)` shifted by 63. -/
def ulp (e : Nat) : ℚ := 2 ^ ((e : ℤ) - 16446)

theorem ulp_pos (e : Nat) : 0 < ulp e := zpow_pos two_pos _

theorem ulp_add (e n : Nat) : ulp (e + n) = 2 ^ n * ulp e := by
  rw [ulp, ulp, Nat.cast_add, ← zpow_natCast, ← zpow_add₀ two_ne_zero]
  congr 1; ring

@[simp] theorem abs_signFactor (s : BitVec 1) : |signFactor s| = 1 := by
  rw [signFactor]; split <;> simp

theorem abs_signFactor_mul (s : BitVec 1) (x : ℚ) : |signFactor s * x| = |x| := by
  rw [abs_mul, abs_signFactor, one_mul]

theorem signFactor_of_ne {s s' : BitVec 1} (h : s ≠ s') : signFactor s' = -signFactor s := by
  revert s s'; decide

/-- The number of a finite pattern: its significand in units of the last place; `e = 0` has the unit of `e = 1`. -/
theorem valueF80_of_finite {b : F80} (h : (unpackF80 b).e ≠ 0x7FFF) : valueF80 b =
    some (signFactor (unpackF80 b).s * ((unpackF80 b).m.toNat * ulp (max (unpackF80 b).e.toNat 1))) := by
  have hexp : (if (unpackF80 b).e = 0 then (1 : ℤ) else ((unpackF80 b).e.toNat : ℤ)) =
      (max (unpackF80 b).e.toNat 1 : Nat) := by
    split
    case isTrue h0 => rw [h0]; rfl
    case isFalse h0 => rw [max_eq_left]; bv_omega
  have hunit (k : ℤ) : (2 : ℚ) ^ (k - 16446) = 2 ^ (k - 16383) / 2 ^ 63 := by
    rw [← zpow_natCast, ← zpow_sub₀ two_ne_zero]; congr 1; ring
  rw [valueF80]
  simp only [if_neg h, hexp, ulp, hunit]
  congr 1
  ring

theorem valueF80_of_between {b : F80} (h0 : (unpackF80 b).e ≠ 0) (h : (unpackF80 b).e ≠ 0x7FFF) : valueF80 b =
    some (signFactor (unpackF80 b).s * ((unpackF80 b).m.toNat * ulp (unpackF80 b).e.toNat)) := by
  rw [valueF80_of_finite h, max_eq_left]
  bv_omega

/-- The number of a pattern put together from an exponent and a significand. -/
theorem valueF80_packF80_ofNat {s : BitVec 1} {e m : Nat} (h0 : 0 < e) (he : e < 0x7FFF) (hm : m < 2 ^ 64) :
    valueF80 (packF80 ⟨s, BitVec.ofNat 15 e, BitVec.ofNat 64 m⟩) = some (signFactor s * (m * ulp e)) := by
  have hexp : (BitVec.ofNat 15 e).toNat = e := by rw [BitVec.toNat_ofNat, Nat.mod_eq_of_lt (by omega)]
  have hsig : (BitVec.ofNat 64 m).toNat = m := by rw [BitVec.toNat_ofNat, Nat.mod_eq_of_lt hm]
  rw [valueF80_of_between] <;> simp only [unpackF80_packF80, hexp, hsig]
  · bv_omega
  · bv_omega

/-! ### Truncated shifts against exact ones (R104) -/

theorem cast_shift_le (m d : Nat) : ((m / 2 ^ d : Nat) : ℚ) ≤ m / 2 ^ d := by
  simpa using Nat.cast_div_le (α := ℚ) (m := m) (n := 2 ^ d)

theorem lt_cast_shift_add_one (m d : Nat) : (m : ℚ) / 2 ^ d < (m / 2 ^ d : Nat) + 1 := by
  rw [div_lt_iff₀ (by positivity)]
  exact_mod_cast Nat.lt_mul_of_div_lt (Nat.lt_succ_self _) (by positivity)

theorem cast_shift_of_dvd {m d : Nat} (h : 2 ^ d ∣ m) : ((m / 2 ^ d : Nat) : ℚ) = m / 2 ^ d := by
  rw [Nat.cast_div h (by positivity)]; simp

/-- In units of the larger exponent's last place a significand is shifted by what its own exponent lacks. -/
theorem mul_ulp_eq (m e e' : Nat) : (m : ℚ) * ulp e = m / 2 ^ (e' - e) * ulp (max e e') := by
  have hmax : max e e' = e + (e' - e) := by omega
  rw [hmax, ulp_add]
  field_simp

/-! ### Addition of one sign (R109 a) -/

/-- What an effective addition answers when it answers (R105). -/
theorem addMagnitudes_some_cases {sign : BitVec 1} {exp big aligned : Nat} {t : Fields 15 64} (hexp : exp < 0x7FFF)
    (hlt : big + aligned < 2 ^ 65) (h : addMagnitudes sign exp big aligned = some t) :
    (big + aligned < 2 ^ 64 ∧ t = ⟨sign, BitVec.ofNat 15 exp, BitVec.ofNat 64 (big + aligned)⟩) ∨
    (2 ^ 64 ≤ big + aligned ∧ exp + 1 < 0x7FFF ∧
      t = ⟨sign, BitVec.ofNat 15 (exp + 1), BitVec.ofNat 64 ((big + aligned) / 2)⟩) := by
  by_cases hsum : big + aligned < 2 ^ 64
  · rw [addMagnitudes_of_lt hsum hexp.ne, Option.some_inj] at h
    exact .inl ⟨hsum, h.symm⟩
  · have hcarry := Nat.le_of_not_lt hsum
    have hnext : exp + 1 ≠ 0x7FFF := fun he => by
      rw [(addMagnitudes_eq_none_iff hexp).mpr ⟨by omega, hcarry⟩] at h
      cases h
    rw [addMagnitudes_of_carry_half hcarry hlt hnext, Option.some_inj] at h
    exact .inr ⟨hcarry, by omega, h.symm⟩

/-- The sum of the significands as the adder forms it: each shifted, truncating, by what its exponent lacks (R104). -/
def alignedSum (a b : Fields 15 64) : Nat :=
  a.m.toNat / 2 ^ (b.e.toNat - a.e.toNat) + b.m.toNat / 2 ^ (a.e.toNat - b.e.toNat)

/-- The same sum with nothing discarded. -/
def exactSum (a b : Fields 15 64) : ℚ :=
  (a.m.toNat : ℚ) / 2 ^ (b.e.toNat - a.e.toNat) + b.m.toNat / 2 ^ (a.e.toNat - b.e.toNat)

theorem alignedSum_le_exactSum (a b : Fields 15 64) : (alignedSum a b : ℚ) ≤ exactSum a b := by
  rw [alignedSum, Nat.cast_add]
  exact add_le_add (cast_shift_le _ _) (cast_shift_le _ _)

/-- The aligned sum falls short by less than one, since one of the two significands is not shifted at all. -/
theorem exactSum_lt_alignedSum (a b : Fields 15 64) : exactSum a b < alignedSum a b + 1 := by
  have hua := lt_cast_shift_add_one a.m.toNat (b.e.toNat - a.e.toNat)
  have hub := lt_cast_shift_add_one b.m.toNat (a.e.toNat - b.e.toNat)
  rw [exactSum, alignedSum, Nat.cast_add]
  obtain h | h := le_total a.e.toNat b.e.toNat
  · have hexact : (b.m.toNat : ℚ) / 2 ^ (a.e.toNat - b.e.toNat) = (b.m.toNat / 2 ^ (a.e.toNat - b.e.toNat) : Nat) := by
      simp [Nat.sub_eq_zero_of_le h]
    linarith
  · have hexact : (a.m.toNat : ℚ) / 2 ^ (b.e.toNat - a.e.toNat) = (a.m.toNat / 2 ^ (b.e.toNat - a.e.toNat) : Nat) := by
      simp [Nat.sub_eq_zero_of_le h]
    linarith

theorem alignedSum_of_dvd {a b : Fields 15 64} (ha : 2 ^ (b.e.toNat - a.e.toNat) ∣ a.m.toNat)
    (hb : 2 ^ (a.e.toNat - b.e.toNat) ∣ b.m.toNat) : (alignedSum a b : ℚ) = exactSum a b := by
  rw [alignedSum, Nat.cast_add, cast_shift_of_dvd ha, cast_shift_of_dvd hb, exactSum]

theorem exactSum_nonneg (a b : Fields 15 64) : 0 ≤ exactSum a b := by
  rw [exactSum]; positivity

/-- Halving `k` times a number that is truncated already loses less than one unit of the halved number's last place. -/
theorem halved_bounds {x k : Nat} {y u : ℚ} (hu : 0 < u) (hle : x ≤ y) (hlt : y < x + 1) :
    (x / 2 ^ k : Nat) * (2 ^ k * u) ≤ y * u ∧ y * u < (x / 2 ^ k : Nat) * (2 ^ k * u) + 2 ^ k * u := by
  have hlow : ((x / 2 ^ k : Nat) : ℚ) * 2 ^ k ≤ x := by exact_mod_cast Nat.div_mul_le_self x (2 ^ k)
  have hhigh : (x : ℚ) + 1 ≤ ((x / 2 ^ k : Nat) + 1) * 2 ^ k := by
    exact_mod_cast Nat.lt_mul_of_div_lt (Nat.lt_succ_self (x / 2 ^ k)) (by positivity)
  constructor
  · calc (x / 2 ^ k : Nat) * (2 ^ k * u) = ((x / 2 ^ k : Nat) * 2 ^ k) * u := by ring
      _ ≤ y * u := mul_le_mul_of_nonneg_right (hlow.trans hle) hu.le
  · calc y * u < ((x / 2 ^ k : Nat) + 1) * 2 ^ k * u := mul_lt_mul_of_pos_right (hlt.trans_le hhigh) hu
      _ = (x / 2 ^ k : Nat) * (2 ^ k * u) + 2 ^ k * u := by ring

/-- The fields of a canonical normal (R52). -/
theorem normal_fields {a : F80} (h : classifyF80 a = .normal) :
    (unpackF80 a).e ≠ 0 ∧ (unpackF80 a).e ≠ 0x7FFF ∧ 2 ^ 63 ≤ (unpackF80 a).m.toNat := by
  obtain ⟨-, -, -, hnormal, -⟩ := classifyFields80_table (unpackF80 a)
  obtain ⟨h0, hmax, hint⟩ := hnormal.mp h
  exact ⟨h0, hmax, intBit_eq_true_iff.mp hint⟩

/-- The exact sum of two normals in units of the bigger exponent's last place. -/
theorem add_values_eq {a b : F80} {va vb : ℚ} (ha : classifyF80 a = .normal) (hb : classifyF80 b = .normal)
    (hva : valueF80 a = some va) (hvb : valueF80 b = some vb) : va + vb =
      (signFactor (unpackF80 a).s * ((unpackF80 a).m.toNat / 2 ^ ((unpackF80 b).e.toNat - (unpackF80 a).e.toNat)) +
        signFactor (unpackF80 b).s * ((unpackF80 b).m.toNat / 2 ^ ((unpackF80 a).e.toNat - (unpackF80 b).e.toNat))) *
        ulp (max (unpackF80 a).e.toNat (unpackF80 b).e.toNat) := by
  obtain ⟨ha0, hamax, -⟩ := normal_fields ha
  obtain ⟨hb0, hbmax, -⟩ := normal_fields hb
  rw [valueF80_of_between ha0 hamax, Option.some_inj, mul_ulp_eq _ _ (unpackF80 b).e.toNat] at hva
  rw [valueF80_of_between hb0 hbmax, Option.some_inj, mul_ulp_eq _ _ (unpackF80 a).e.toNat, max_comm] at hvb
  rw [← hva, ← hvb]
  ring

/-- The defined sum of two normals of one sign: the aligned sum with its exponent, halved once (`k = 1`) on a carry. -/
theorem add80_sameSign {a b r : F80} (ha : classifyF80 a = .normal) (hb : classifyF80 b = .normal)
    (hsign : (unpackF80 a).s = (unpackF80 b).s) (h : add80 a b 0 = some r) :
    ∃ k, (k = 0 ∨ k = 1 ∧ 2 ^ 64 ≤ alignedSum (unpackF80 a) (unpackF80 b)) ∧
      alignedSum (unpackF80 a) (unpackF80 b) / 2 ^ k < 2 ^ 64 ∧
      0 < max (unpackF80 a).e.toNat (unpackF80 b).e.toNat + k ∧
      max (unpackF80 a).e.toNat (unpackF80 b).e.toNat + k < 0x7FFF ∧
      r = packF80 ⟨(unpackF80 a).s, BitVec.ofNat 15 (max (unpackF80 a).e.toNat (unpackF80 b).e.toNat + k),
        BitVec.ofNat 64 (alignedSum (unpackF80 a) (unpackF80 b) / 2 ^ k)⟩ := by
  obtain ⟨ha0, hamax, -⟩ := normal_fields ha
  obtain ⟨-, hbmax, -⟩ := normal_fields hb
  have hsub : effectiveSub (unpackF80 a) (unpackF80 b) 0 = 0 := by simp [effectiveSub, hsign]
  have hsgn : (orderOperands (unpackF80 a) (unpackF80 b) 0).sign = (unpackF80 a).s := by
    rw [orderOperands]; split <;> simp [hsign]
  have hexp : max (unpackF80 a).e.toNat (unpackF80 b).e.toNat < 0x7FFF :=
    max_lt (toNat_lt_max_iff.mpr hamax) (toNat_lt_max_iff.mpr hbmax)
  have hpos : 0 < max (unpackF80 a).e.toNat (unpackF80 b).e.toNat := lt_max_of_lt_left (by bv_omega)
  have hlt : alignedSum (unpackF80 a) (unpackF80 b) < 2 ^ 65 := by
    have hla := (Nat.div_le_self (unpackF80 a).m.toNat (2 ^ ((unpackF80 b).e.toNat - (unpackF80 a).e.toNat))).trans_lt
      (unpackF80 a).m.isLt
    have hlb := (Nat.div_le_self (unpackF80 b).m.toNat (2 ^ ((unpackF80 a).e.toNat - (unpackF80 b).e.toNat))).trans_lt
      (unpackF80 b).m.isLt
    rw [alignedSum]
    omega
  obtain ⟨t, ht, rfl⟩ := Option.map_eq_some_iff.mp h
  rw [addFields_of_effectiveAddition hsub hamax hbmax, hsgn] at ht
  obtain ⟨hsum, rfl⟩ | ⟨hcarry, hnext, rfl⟩ := addMagnitudes_some_cases hexp hlt ht
  · exact ⟨0, .inl rfl, (Nat.div_one _).trans_lt hsum, hpos, hexp, by simp [alignedSum]⟩
  · exact ⟨1, .inr ⟨rfl, hcarry⟩, by omega, by omega, hnext, by simp [alignedSum]⟩

/-- Settles O52: the aligned sum against the exact one, and once more the halving on a carry. -/
theorem additionTruncatesTowardZero : Obligations.AdditionTruncatesTowardZero := by
  intro a b r va vb vr hna hnb hsign hadd hva hvb hvr
  obtain ⟨k, hk, hsig, hpos, hexp, rfl⟩ := add80_sameSign hna hnb hsign hadd
  have hsum : va + vb = signFactor (unpackF80 a).s *
      (exactSum (unpackF80 a) (unpackF80 b) * ulp (max (unpackF80 a).e.toNat (unpackF80 b).e.toNat)) := by
    rw [add_values_eq hna hnb hva hvb, ← hsign, exactSum]; ring
  have hE : (BitVec.ofNat 15 (max (unpackF80 a).e.toNat (unpackF80 b).e.toNat + k)).toNat =
      max (unpackF80 a).e.toNat (unpackF80 b).e.toNat + k := by
    rw [BitVec.toNat_ofNat, Nat.mod_eq_of_lt (by omega)]
  have hu := ulp_pos (max (unpackF80 a).e.toNat (unpackF80 b).e.toNat)
  obtain ⟨hle, hlt⟩ := halved_bounds (k := k) hu (alignedSum_le_exactSum (unpackF80 a) (unpackF80 b))
    (exactSum_lt_alignedSum (unpackF80 a) (unpackF80 b))
  have hnonneg := exactSum_nonneg (unpackF80 a) (unpackF80 b)
  rw [valueF80_packF80_ofNat hpos hexp hsig, Option.some_inj, ulp_add] at hvr
  simp only [unpackF80_packF80, hE]
  rw [← ulp, ulp_add, ← hvr, hsum, abs_signFactor_mul, abs_signFactor_mul, abs_of_nonneg (by positivity),
    abs_of_nonneg (by positivity)]
  refine ⟨trivial, hle, hlt, fun hda hdb hx => ?_⟩
  have hdvd : 2 ^ k ∣ alignedSum (unpackF80 a) (unpackF80 b) := by
    obtain rfl | ⟨rfl, hcarry⟩ := hk
    · exact one_dvd _
    · exact hx.resolve_left (Nat.not_lt.mpr hcarry)
  rw [cast_shift_of_dvd hdvd, alignedSum_of_dvd hda hdb]
  field_simp

/-! ### Addition of opposite signs (R109 a) -/

/-- The difference of the significands needs no wrap where the bigger one is a normal's (R106). -/
theorem wrappedDifference_eq_sub {big aligned : Nat} (h : aligned ≤ big) (hbig : big < 2 ^ 64) :
    wrappedDifference big aligned = big - aligned := by
  rw [wrappedDifference, Nat.add_sub_assoc h, Nat.add_mod_left, Nat.mod_eq_of_lt (by omega)]

/-- The number of a difference whose exponent field is not 0: normalising does not change it (R107). -/
theorem valueF80_subMagnitudes {sign : BitVec 1} {exp big aligned : Nat} (hexp : exp < 0x7FFF) (h : aligned ≤ big)
    (hbig : big < 2 ^ 64) (he : (subMagnitudes sign exp big aligned).e ≠ 0) :
    valueF80 (packF80 (subMagnitudes sign exp big aligned)) =
      some (signFactor sign * ((big - aligned : Nat) * ulp exp)) := by
  have hd := wrappedDifference_eq_sub h hbig
  have h0 : wrappedDifference big aligned ≠ 0 := fun h0 => he (by rw [subMagnitudes_of_zero h0]; rfl)
  have hsub := subMagnitudes_of_ne_zero (sign := sign) (exp := exp) h0
  have hmin := min_le_right (clz64 (wrappedDifference big aligned)) exp
  obtain ⟨hlt, -⟩ := clampedShift_bounds (exp := exp) h0 (by rw [hd]; omega)
  generalize min (clz64 (wrappedDifference big aligned)) exp = n at *
  have hpos : 0 < exp - n := Nat.pos_of_ne_zero fun hz => he (by rw [hsub, hz]; rfl)
  have hsplit : ulp exp = 2 ^ n * ulp (exp - n) := by rw [← ulp_add, Nat.sub_add_cancel hmin]
  rw [hsub, valueF80_packF80_ofNat hpos (by omega) hlt, hd, hsplit, Nat.cast_mul, Nat.cast_pow, Nat.cast_ofNat]
  ring_nf

/-- The bigger operand, a normal, is not smaller than the other one's shifted significand. -/
theorem le_mul_of_notSmaller {a b : Fields 15 64} (h : NotSmaller a b) (ha : 2 ^ 63 ≤ a.m.toNat) :
    b.m.toNat ≤ 2 ^ (a.e.toNat - b.e.toNat) * a.m.toNat := by
  obtain hlt | ⟨he, hm⟩ := h
  · calc b.m.toNat ≤ 2 ^ 1 * 2 ^ 63 := b.m.isLt.le
      _ ≤ 2 ^ (a.e.toNat - b.e.toNat) * a.m.toNat :=
          Nat.mul_le_mul (Nat.pow_le_pow_right (by decide) (Nat.sub_pos_of_lt hlt)) ha
  · rw [he, Nat.sub_self, pow_zero, Nat.one_mul]
    exact hm

/-- The statement of O53 where the first operand is the bigger one, or as big. -/
theorem subtraction_errs_upward {a b r : F80} {va vb vr : ℚ} (hna : classifyF80 a = .normal)
    (hnb : classifyF80 b = .normal) (hbig : NotSmaller (unpackF80 a) (unpackF80 b))
    (hsign : (unpackF80 a).s ≠ (unpackF80 b).s) (hadd : add80 a b 0 = some r) (he : (unpackF80 r).e ≠ 0)
    (hva : valueF80 a = some va) (hvb : valueF80 b = some vb) (hvr : valueF80 r = some vr) :
    |va + vb| ≤ |vr| ∧ |vr| < |va + vb| + ulp (unpackF80 a).e.toNat ∧
      (2 ^ ((unpackF80 a).e.toNat - (unpackF80 b).e.toNat) ∣ (unpackF80 b).m.toNat → vr = va + vb) := by
  obtain ⟨-, hamax, htop⟩ := normal_fields hna
  have hmul := le_mul_of_notSmaller hbig htop
  have hle := Nat.div_le_of_le_mul hmul
  have hexp := hbig.toNat_e_le
  have hsub : effectiveSub (unpackF80 a) (unpackF80 b) 0 ≠ 0 := by simpa [effectiveSub] using hsign
  have hsum := add_values_eq hna hnb hva hvb
  rw [signFactor_of_ne hsign, Nat.sub_eq_zero_of_le hexp, max_eq_left hexp] at hsum
  obtain ⟨t, ht, rfl⟩ := Option.map_eq_some_iff.mp hadd
  rw [addFields_of_notSmaller hbig hamax, if_neg hsub, Option.some_inj] at ht
  subst ht
  rw [unpackF80_packF80] at he
  rw [valueF80_subMagnitudes (toNat_lt_max_iff.mpr hamax) hle (unpackF80 a).m.isLt he, Option.some_inj,
    Nat.cast_sub hle] at hvr
  generalize (unpackF80 a).e.toNat - (unpackF80 b).e.toNat = d at *
  generalize (unpackF80 a).m.toNat = ma at *
  generalize (unpackF80 b).m.toNat = mb at *
  have hfloor := cast_shift_le mb d
  have hceil := lt_cast_shift_add_one mb d
  have hu := ulp_pos (unpackF80 a).e.toNat
  have htrue : va + vb = signFactor (unpackF80 a).s * ((ma - mb / 2 ^ d) * ulp (unpackF80 a).e.toNat) := by
    rw [hsum]; ring
  have hnonneg : (0 : ℚ) ≤ ma - mb / 2 ^ d := by
    rw [sub_nonneg, div_le_iff₀' (by positivity)]
    exact_mod_cast hmul
  have hup : (ma : ℚ) - mb / 2 ^ d ≤ ma - (mb / 2 ^ d : Nat) := by linarith
  have hclose : (ma : ℚ) - (mb / 2 ^ d : Nat) < ma - mb / 2 ^ d + 1 := by linarith
  rw [htrue, ← hvr, abs_signFactor_mul, abs_signFactor_mul, abs_of_nonneg (mul_nonneg hnonneg hu.le),
    abs_of_nonneg (mul_nonneg (hnonneg.trans hup) hu.le)]
  refine ⟨mul_le_mul_of_nonneg_right hup hu.le, ?_, fun hdvd => ?_⟩
  · exact (mul_lt_mul_of_pos_right hclose hu).trans_eq (by ring)
  · rw [cast_shift_of_dvd hdvd]

/-- Settles O53: the adder commutes where it cancels nothing, so the first operand may be taken as the bigger one. -/
theorem subtractionErrsUpward : Obligations.SubtractionErrsUpward := by
  intro a b r va vb vr hna hnb hsign hadd he hva hvb hvr
  rw [← Nat.cast_max, ← ulp]
  by_cases hbig : Bigger (unpackF80 b) (unpackF80 a)
  · have hadd' : add80 b a 0 = some r := (add80_comm_of_bigger hbig).trans hadd
    obtain ⟨hle, hlt, hexact⟩ :=
      subtraction_errs_upward hnb hna hbig.notSmaller hsign.symm hadd' he hvb hva hvr
    rw [add_comm va vb, max_eq_right hbig.notSmaller.toNat_e_le]
    exact ⟨hle, hlt, fun hda _ => hexact hda⟩
  · have hnot := not_bigger_iff.mp hbig
    obtain ⟨hle, hlt, hexact⟩ := subtraction_errs_upward hna hnb hnot hsign hadd he hva hvb hvr
    rw [max_eq_left hnot.toNat_e_le]
    exact ⟨hle, hlt, fun _ hdb => hexact hdb⟩

end Sys2Proof.Machine
end

section
/-! ### Widening of the denormals (R69), and of all finite patterns together -/

namespace Sys2Proof.Machine

/-- Setting a top bit that is clear adds its weight. -/
theorem or_two_pow_of_lt {k x : Nat} (h : x < 2 ^ k) : 2 ^ k ||| x = 2 ^ k + x := by
  simpa using (Nat.two_pow_add_eq_or_of_lt h 1).symm

/-- The loop of R69 shifts by the number of places the highest 1 of `m` lacks to bit `sw`, given fuel for them. -/
theorem normaliseLoop_eq {sw fuel m k n : Nat} {e : Int} (hk : k + n = sw) (hf : n ≤ fuel) (hlow : 2 ^ k ≤ m)
    (hhigh : m < 2 ^ (k + 1)) : normaliseLoop sw fuel m e = (m * 2 ^ n, e - n) := by
  induction fuel generalizing m k n e with
  | zero =>
    obtain rfl : n = 0 := Nat.le_zero.mp hf
    simp [normaliseLoop]
  | succ fuel ih =>
    cases n with
    | zero =>
      have hbit : m.testBit sw = true := by
        have hone : m / 2 ^ k = 1 := Nat.div_eq_of_lt_le (by omega) (by rw [pow_succ] at hhigh; omega)
        rw [← hk, Nat.add_zero, Nat.testBit_eq_decide_div_mod_eq, hone]
        rfl
      simp [normaliseLoop, hbit]
    | succ n =>
      have hbit : m.testBit sw = false :=
        Nat.testBit_lt_two_pow (hhigh.trans_le (Nat.pow_le_pow_right (by decide) (by omega)))
      have hnext := ih (m := m * 2) (k := k + 1) (n := n) (e := e - 1) (by omega) (by omega)
        (by rw [pow_succ]; omega) (by rw [pow_succ]; omega)
      rw [normaliseLoop, hbit, if_neg Bool.false_ne_true, hnext]
      exact Prod.ext (by rw [pow_succ]; ring) (by push_cast; ring)

section Denormal
variable {ew sw : Nat} {t : Fields ew sw}

/-- The closed form of R69: one shift takes the highest 1 of `m`, bit `k`, to the integer bit. -/
theorem expandFields_of_denormal (hew : 0 < ew) (hsw : sw ≤ 63) (hbias : bias ew + sw ≤ 16384) (he : t.e = 0) {k : Nat}
    (hlow : 2 ^ k ≤ t.m.toNat) (hhigh : t.m.toNat < 2 ^ (k + 1)) :
    expandFields t =
      ⟨t.s, BitVec.ofNat 15 (16384 - bias ew - sw + k), BitVec.ofNat 64 (t.m.toNat * 2 ^ (63 - k))⟩ := by
  have hk : k < sw := (Nat.pow_lt_pow_iff_right (by decide)).mp (hlow.trans_lt t.m.isLt)
  have hmax : t.e.toNat ≠ expMax ew := by
    rw [ne_eq, toNat_eq_expMax_iff, he]
    simp [hew.ne']
  have hm : t.m ≠ 0 := fun h => by
    rw [h] at hlow
    exact absurd hlow (by simp)
  have hexp : (0 : Int) - (sw - k : Nat) + 1 - bias ew + 16383 = (16384 - bias ew - sw + k : Nat) := by omega
  have hsig : (t.m.toNat * 2 ^ (sw - k)) <<< narrowShift sw = t.m.toNat * 2 ^ (63 - k) := by
    rw [Nat.shiftLeft_eq, narrowShift, Nat.mul_assoc, ← pow_add]
    congr 2; omega
  rw [expandFields, if_neg hmax, if_pos he, if_neg hm, expandDenormal,
    normaliseLoop_eq (k := k) (n := sw - k) (by omega) (by omega) hlow hhigh]
  simp only [hexp, hsig, BitVec.ofInt_natCast]

end Denormal

/-- A left shift of a narrow significand in 64 bits, by its number. -/
theorem setWidth_shiftLeft_eq_ofNat {sw : Nat} (hsw : sw ≤ 64) (m : BitVec sw) (n : Nat) :
    m.setWidth 64 <<< n = BitVec.ofNat 64 (m.toNat * 2 ^ n) := by
  apply BitVec.eq_of_toNat_eq
  rw [BitVec.toNat_shiftLeft, BitVec.toNat_setWidth_of_le hsw, Nat.shiftLeft_eq, BitVec.toNat_ofNat]

/-- Settles O35: the closed form at any widths, taken at the two narrow formats. -/
theorem expandOfDenormalsInClosedForm : Obligations.ExpandOfDenormalsInClosedForm := by
  refine ⟨fun s m k hlow hhigh => ?_, fun s m k hlow hhigh => ?_⟩
  · rw [expandF32_packF32, expandFields_of_denormal (t := ⟨s, 0, m⟩) (by decide) (by decide) (by decide) rfl hlow hhigh,
      setWidth_shiftLeft_eq_ofNat (by decide)]
    rfl
  · rw [expandF64_packF64, expandFields_of_denormal (t := ⟨s, 0, m⟩) (by decide) (by decide) (by decide) rfl hlow hhigh,
      setWidth_shiftLeft_eq_ofNat (by decide)]
    rfl

end Sys2Proof.Machine
end

section
/-! ### The numbers of a narrow format (R54) as a grid of multiples of its smallest one -/

namespace Sys2Proof.Machine

/-- The smallest positive number of a narrow format. -/
def narrowUnit (ew sw : Nat) : ℚ := 2 ^ ((1 : ℤ) - bias ew - sw)

theorem narrowUnit_pos (ew sw : Nat) : 0 < narrowUnit ew sw := zpow_pos two_pos _

/-- Exponent and significand as one number: the pattern without its sign (R45, R46). -/
def packedMagnitude {ew sw : Nat} (t : Fields ew sw) : Nat := t.e.toNat * 2 ^ sw + t.m.toNat

/-- The number of the packed magnitude `p`, in units of the smallest positive number: from `2^sw` on the implicit
leading 1 is there, and each exponent step doubles. -/
def grid (sw p : Nat) : Nat := if p / 2 ^ sw = 0 then p else (2 ^ sw + p % 2 ^ sw) * 2 ^ (p / 2 ^ sw - 1)

section Narrow
variable {ew sw : Nat}

theorem packedMagnitude_div (t : Fields ew sw) : packedMagnitude t / 2 ^ sw = t.e.toNat := by
  rw [packedMagnitude, Nat.add_comm, Nat.add_mul_div_right _ _ (by positivity), Nat.div_eq_of_lt t.m.isLt, Nat.zero_add]

theorem packedMagnitude_mod (t : Fields ew sw) : packedMagnitude t % 2 ^ sw = t.m.toNat := by
  rw [packedMagnitude, Nat.mul_add_mod_self_right, Nat.mod_eq_of_lt t.m.isLt]

/-- Sign and packed magnitude are the whole pattern. -/
theorem fields_ext_packedMagnitude {t u : Fields ew sw} (hs : t.s = u.s) (h : packedMagnitude t = packedMagnitude u) :
    t = u := by
  have he : t.e = u.e := BitVec.eq_of_toNat_eq (by rw [← packedMagnitude_div, h, packedMagnitude_div])
  have hm : t.m = u.m := BitVec.eq_of_toNat_eq (by rw [← packedMagnitude_mod, h, packedMagnitude_mod])
  cases t
  cases u
  simp_all

/-- A finite pattern's number is its sign times its place in the grid. -/
theorem narrowValue_of_finite {t : Fields ew sw} (h : t.e.toNat ≠ expMax ew) :
    narrowValue t = some (signFactor t.s * (grid sw (packedMagnitude t) * narrowUnit ew sw)) := by
  have hunit (k : ℤ) : (2 : ℚ) ^ (k - bias ew) = 2 ^ (k - 1) * 2 ^ sw * narrowUnit ew sw := by
    rw [narrowUnit, ← zpow_natCast, ← zpow_add₀ two_ne_zero, ← zpow_add₀ two_ne_zero]
    congr 1; ring
  rw [narrowValue, if_neg h]
  by_cases h0 : t.e = 0
  · have hp : packedMagnitude t = t.m.toNat := by simp [packedMagnitude, h0]
    rw [if_pos h0, grid, packedMagnitude_div, h0, if_pos (by simp), hp, hunit]
    rw [sub_self, zpow_zero]
    congr 1
    field_simp
  · have hpos : t.e.toNat ≠ 0 := fun h => h0 (BitVec.eq_of_toNat_eq h)
    have hexp : (2 : ℚ) ^ ((t.e.toNat : ℤ) - 1) = (2 ^ (t.e.toNat - 1) : Nat) := by
      rw [Nat.cast_pow, Nat.cast_ofNat, ← zpow_natCast, Nat.cast_sub (Nat.one_le_iff_ne_zero.mpr hpos), Nat.cast_one]
    rw [if_neg h0, grid, packedMagnitude_div, if_neg hpos, packedMagnitude_mod, hunit, hexp]
    congr 1
    push_cast
    field_simp

theorem narrowValue_eq_some_finite {t : Fields ew sw} {q : ℚ} (h : narrowValue t = some q) : t.e.toNat ≠ expMax ew := by
  intro hmax
  rw [narrowValue, if_pos hmax] at h
  cases h

end Narrow

/-- Up to the smallest normal the grid is the packed magnitude. -/
theorem grid_of_le {sw p : Nat} (h : p ≤ 2 ^ sw) : grid sw p = p := by
  rw [grid]
  obtain hlt | rfl := h.lt_or_eq
  · rw [if_pos (Nat.div_eq_of_lt hlt)]
  · simp

/-- At exponent `e`, and at the first pattern after it, the grid has the steps of `e`. -/
theorem grid_of_exponent {sw e m : Nat} (he : 0 < e) (hm : m ≤ 2 ^ sw) :
    grid sw (e * 2 ^ sw + m) = (2 ^ sw + m) * 2 ^ (e - 1) := by
  have hpos : 0 < 2 ^ sw := by positivity
  obtain hlt | rfl := hm.lt_or_eq
  · have hdiv : (e * 2 ^ sw + m) / 2 ^ sw = e := by
      rw [Nat.add_comm, Nat.add_mul_div_right _ _ hpos, Nat.div_eq_of_lt hlt, Nat.zero_add]
    rw [grid, hdiv, if_neg he.ne', Nat.mul_add_mod_self_right, Nat.mod_eq_of_lt hlt]
  · have hnext : e * 2 ^ sw + 2 ^ sw = (e + 1) * 2 ^ sw := by ring
    have htwo : 2 ^ e = 2 * 2 ^ (e - 1) := by rw [← pow_succ', Nat.sub_add_cancel he]
    rw [hnext, grid, Nat.mul_div_cancel _ hpos, if_neg (by omega), Nat.mul_mod_left, Nat.add_sub_cancel, htwo]
    ring

/-- Neighbours in the grid are one unit of the last place apart; a carry into the exponent is such a step, too. -/
theorem grid_succ (sw p : Nat) : grid sw (p + 1) = grid sw p + 2 ^ (p / 2 ^ sw - 1) := by
  have hm : p % 2 ^ sw < 2 ^ sw := Nat.mod_lt _ (by positivity)
  have hsplit := Nat.div_add_mod' p (2 ^ sw)
  generalize p / 2 ^ sw = e at *
  generalize p % 2 ^ sw = m at *
  subst hsplit
  have hnext : m + 1 ≤ 2 ^ sw := hm
  obtain rfl | he := Nat.eq_zero_or_pos e
  · rw [Nat.zero_mul, Nat.zero_add, grid_of_le hnext, grid_of_le hm.le]
    rfl
  · rw [Nat.add_assoc, grid_of_exponent he hnext, grid_of_exponent he hm.le]
    ring

theorem grid_strictMono (sw : Nat) : StrictMono (grid sw) :=
  strictMono_nat_of_lt_succ fun p => by
    rw [grid_succ]
    exact Nat.lt_add_of_pos_right (by positivity)

/-! ### Widening, on numbers -/

/-- The fields of a canonical normal F80 pattern of sign `s`, with exponent `e` and significand `m`. -/
structure IsNormal80 (t : Fields 15 64) (s : BitVec 1) (e m : Nat) : Prop where
  fields : t = ⟨s, BitVec.ofNat 15 e, BitVec.ofNat 64 m⟩
  e_pos : 0 < e
  e_lt : e < 0x7FFF
  m_ge : 2 ^ 63 ≤ m
  m_lt : m < 2 ^ 64

section IsNormal80
variable {t : Fields 15 64} {s : BitVec 1} {e m : Nat}

theorem IsNormal80.toNat_e (h : IsNormal80 t s e m) : t.e.toNat = e := by
  rw [h.fields, BitVec.toNat_ofNat, Nat.mod_eq_of_lt (h.e_lt.trans (by decide))]

theorem IsNormal80.toNat_m (h : IsNormal80 t s e m) : t.m.toNat = m := by
  rw [h.fields, BitVec.toNat_ofNat, Nat.mod_eq_of_lt h.m_lt]

theorem IsNormal80.sign (h : IsNormal80 t s e m) : t.s = s := by rw [h.fields]

theorem IsNormal80.ne_max (h : IsNormal80 t s e m) : t.e ≠ 0x7FFF :=
  toNat_lt_max_iff.mp (h.toNat_e.trans_lt h.e_lt)

theorem IsNormal80.ne_zero (h : IsNormal80 t s e m) : t.e ≠ 0 := fun h0 =>
  h.e_pos.ne (by rw [← h.toNat_e, h0]; rfl)

theorem IsNormal80.classify (h : IsNormal80 t s e m) : classifyFields80 t = .normal := by
  obtain ⟨-, -, -, hnormal, -⟩ := classifyFields80_table t
  exact hnormal.mpr ⟨h.ne_zero, h.ne_max, intBit_eq_true_iff.mpr (h.m_ge.trans_eq h.toNat_m.symm)⟩

end IsNormal80

/-- At the largest exponent the two top bits of the significand make a quiet NaN (R52). -/
theorem classifyFields80_of_quiet {t : Fields 15 64} (he : t.e = 0x7FFF) (hint : intBit t.m = true)
    (hquiet : t.m.getLsbD 62 = true) : classifyFields80 t = .quietNaN := by
  have hinf : t.m ≠ 0x8000000000000000#64 := fun h => by
    rw [h] at hquiet
    exact absurd hquiet (by decide)
  have hzero : t.m ≠ 0#64 := fun h => by
    rw [h] at hquiet
    exact absurd hquiet (by decide)
  rw [classifyFields80_of_exponent_max he, if_neg hinf, if_neg hzero, if_pos hint, if_pos hquiet]

/-- What the conversions need of a narrow format's widths: it fits into F80 with room to spare. -/
structure NarrowWidths (ew sw : Nat) : Prop where
  ew_gt : 1 < ew
  sw_pos : 0 < sw
  sw_lt : sw < 63
  range : bias ew + sw < 16382

theorem widthsF32 : NarrowWidths 8 23 := by constructor <;> decide
theorem widthsF64 : NarrowWidths 11 52 := by constructor <;> decide

/-- The largest exponent field is one more than twice the bias (R5). -/
theorem expMax_eq {ew : Nat} (h : 0 < ew) : expMax ew = 2 * bias ew + 1 := by
  obtain ⟨n, rfl⟩ := Nat.exists_eq_succ_of_ne_zero h.ne'
  have hpos : 0 < 2 ^ n := by positivity
  rw [expMax, bias, Nat.succ_sub_one, pow_succ]
  omega

theorem toNat_lt_expMax_iff {ew : Nat} {e : BitVec ew} : e.toNat < expMax ew ↔ e ≠ BitVec.allOnes ew := by
  rw [ne_eq, ← toNat_eq_expMax_iff]
  have hlt := e.isLt
  unfold expMax
  omega

section Widening
variable {ew sw : Nat}

/-- F80's last places below and at the narrow format's smallest normal, against its smallest number. -/
theorem narrowUnit_eq_mul_ulp (hw : NarrowWidths ew sw) {n : Nat} (hn : n ≤ 64) :
    narrowUnit ew sw = 2 ^ (64 - n) * ulp (16383 - bias ew - sw + n) := by
  have hcast : ((16383 - bias ew - sw + n : Nat) : ℤ) = 16383 - bias ew - sw + n := by
    have := hw.range
    omega
  rw [ulp, narrowUnit, hcast, ← zpow_natCast, ← zpow_add₀ two_ne_zero, Nat.cast_sub hn]
  congr 1; push_cast; ring

/-- The same for a normal of exponent field `e`. -/
theorem mul_ulp_of_normal (hw : NarrowWidths ew sw) {e : Nat} (he : 0 < e) :
    2 ^ (63 - sw) * ulp (16383 - bias ew + e) = 2 ^ (e - 1) * narrowUnit ew sw := by
  have hrange := hw.range
  have hsw := hw.sw_lt
  have hsplit : 16383 - bias ew + e = 16383 - bias ew - sw + (sw + 1) + (e - 1) := by omega
  have hplaces : 64 - (sw + 1) = 63 - sw := by omega
  rw [hsplit, ulp_add, narrowUnit_eq_mul_ulp hw (n := sw + 1) (by omega), hplaces]
  ring

/-- The leading 1 made explicit and the fraction under it (R70), as one number. -/
theorem intBit_or_alignFraction (hw : NarrowWidths ew sw) (m : BitVec sw) :
    0x8000000000000000 ||| alignFraction m = BitVec.ofNat 64 (2 ^ 63 + m.toNat * 2 ^ (63 - sw)) := by
  have hlt : m.toNat * 2 ^ (63 - sw) < 2 ^ 63 := by
    calc m.toNat * 2 ^ (63 - sw) < 2 ^ sw * 2 ^ (63 - sw) := Nat.mul_lt_mul_of_pos_right m.isLt (by positivity)
      _ = 2 ^ 63 := by rw [← pow_add, Nat.add_sub_cancel' hw.sw_lt.le]
  rw [alignFraction, setWidth_shiftLeft_eq_ofNat (hw.sw_lt.le.trans (by decide)), narrowShift,
    ← or_two_pow_of_lt hlt, BitVec.ofNat_or]
  rfl

/-- A pattern that is neither zero, infinity nor NaN becomes a normal of the same number, within the narrow format's
range and precision (R69 to R71). -/
theorem expandFields_finite (hw : NarrowWidths ew sw) {t : Fields ew sw} (hmax : t.e ≠ BitVec.allOnes ew)
    (h0 : t.e ≠ 0 ∨ t.m ≠ 0) :
    ∃ e m, IsNormal80 (expandFields t) t.s e m ∧ 16383 - bias ew - sw < e ∧ e ≤ 16383 + bias ew ∧
      2 ^ (63 - sw) ∣ m ∧ narrowValue t = some (signFactor t.s * (m * ulp e)) := by
  have ⟨hew, hsw, hsw', hrange⟩ := hw
  have hvalue := narrowValue_of_finite (t := t) (mt toNat_eq_expMax_iff.mp hmax)
  by_cases he : t.e = 0
  · have hm0 : t.m.toNat ≠ 0 := fun h => h0.elim (· he) (· (BitVec.eq_of_toNat_eq h))
    have hlow := Nat.log2_self_le hm0
    have hhigh := Nat.lt_log2_self (n := t.m.toNat)
    have hk : t.m.toNat.log2 < sw := (Nat.log2_lt hm0).mpr t.m.isLt
    have hexpand := expandFields_of_denormal (by omega) hsw'.le (by omega) he hlow hhigh
    have hp : packedMagnitude t = t.m.toNat := by simp [packedMagnitude, he]
    rw [hp, grid_of_le t.m.isLt.le] at hvalue
    generalize t.m.toNat.log2 = k at *
    have hexp : 16384 - bias ew - sw + k = 16383 - bias ew - sw + (k + 1) := by omega
    have hplaces : 64 - (k + 1) = 63 - k := by omega
    rw [hexp] at hexpand
    refine ⟨_, _, ⟨hexpand, by omega, by omega, ?_, ?_⟩, by omega, by omega, ?_, ?_⟩
    · calc 2 ^ 63 = 2 ^ k * 2 ^ (63 - k) := by rw [← pow_add]; congr 1; omega
        _ ≤ t.m.toNat * 2 ^ (63 - k) := Nat.mul_le_mul_right _ hlow
    · calc t.m.toNat * 2 ^ (63 - k) < 2 ^ (k + 1) * 2 ^ (63 - k) := Nat.mul_lt_mul_of_pos_right hhigh (by positivity)
        _ = 2 ^ 64 := by rw [← pow_add]; congr 1; omega
    · exact Dvd.dvd.mul_left (pow_dvd_pow 2 (by omega)) _
    · rw [hvalue, narrowUnit_eq_mul_ulp hw (n := k + 1) (by omega), hplaces]
      push_cast
      ring_nf
  · have hpos : 0 < t.e.toNat := Nat.pos_of_ne_zero fun h => he (BitVec.eq_of_toNat_eq h)
    have hlast := toNat_lt_expMax_iff.mpr hmax
    rw [expMax_eq (by omega)] at hlast
    have hexpand := expandFields_of_normal (by omega) he hmax
    have hexp : t.e.setWidth 15 + BitVec.ofNat 15 (16383 - bias ew) =
        BitVec.ofNat 15 (16383 - bias ew + t.e.toNat) := by
      rw [Nat.add_comm, BitVec.ofNat_add, BitVec.ofNat_toNat]
    have hsig : 2 ^ 63 + t.m.toNat * 2 ^ (63 - sw) = (2 ^ sw + t.m.toNat) * 2 ^ (63 - sw) := by
      rw [Nat.add_mul, ← pow_add, Nat.add_sub_cancel' hsw'.le]
    have htop : 2 ^ 64 = 2 ^ (sw + 1) * 2 ^ (63 - sw) := by rw [← pow_add]; congr 1; omega
    rw [intBit_or_alignFraction hw, hexp, hsig] at hexpand
    refine ⟨_, _, ⟨hexpand, by omega, by omega, ?_, ?_⟩, by omega, by omega, Nat.dvd_mul_left _ _, ?_⟩
    · exact hsig ▸ Nat.le_add_right _ _
    · have hm := t.m.isLt
      rw [htop]
      exact Nat.mul_lt_mul_of_pos_right (by omega) (by positivity)
    · have hu := mul_ulp_of_normal hw hpos
      rw [hvalue, packedMagnitude, grid_of_exponent hpos t.m.isLt.le]
      push_cast
      rw [mul_assoc (_ + _), mul_assoc (_ + _), hu]

/-- Every widened pattern has the narrow one's sign and is zero, normal, infinity or quiet NaN (R71, R73). -/
theorem expandFields_sign_class (hw : NarrowWidths ew sw) (t : Fields ew sw) :
    (expandFields t).s = t.s ∧
      classifyFields80 (expandFields t) ∈ [F80Class.zero, .normal, .infinity, .quietNaN] := by
  by_cases hmax : t.e = BitVec.allOnes ew
  · by_cases hm : t.m = 0
    · rw [expandFields_of_infinity hmax hm, infF80, classifyFields80_of_exponent_max rfl]
      exact ⟨rfl, by simp⟩
    · have hbit (i : Nat) (hi : (0xC000000000000000 : BitVec 64).getLsbD i = true) :
          (alignFraction t.m ||| 0xC000000000000000).getLsbD i = true := by
        rw [BitVec.getLsbD_or, hi, Bool.or_true]
      have hclass : classifyFields80 ⟨t.s, 0x7FFF, alignFraction t.m ||| 0xC000000000000000⟩ = .quietNaN :=
        classifyFields80_of_quiet rfl (hbit 63 (by decide)) (hbit 62 (by decide))
      rw [expandFields_of_nan hmax hm, hclass]
      exact ⟨rfl, by simp⟩
  by_cases h0 : t.e ≠ 0 ∨ t.m ≠ 0
  · obtain ⟨e, m, hnormal, -⟩ := expandFields_finite hw hmax h0
    rw [hnormal.classify]
    exact ⟨hnormal.sign, by simp⟩
  · rw [not_or, not_not, not_not] at h0
    rw [expandFields_of_zero (Nat.zero_lt_of_lt hw.ew_gt) h0.1 h0.2, zeroFields, classifyFields80_of_exponent_zero rfl]
    exact ⟨rfl, by simp⟩

/-- Widening is exact (R71). -/
theorem valueF80_expandFields (hw : NarrowWidths ew sw) {t : Fields ew sw} {q : ℚ} (h : narrowValue t = some q) :
    valueF80 (packF80 (expandFields t)) = some q := by
  have hfinite := narrowValue_eq_some_finite h
  have hmax := mt toNat_eq_expMax_iff.mpr hfinite
  by_cases h0 : t.e ≠ 0 ∨ t.m ≠ 0
  · obtain ⟨e, m, ⟨hfields, hpos, hlt, hge, hm⟩, -, -, -, hvalue⟩ := expandFields_finite hw hmax h0
    rw [hfields, valueF80_packF80_ofNat hpos hlt hm, ← hvalue, h]
  · rw [not_or, not_not, not_not] at h0
    have hp : packedMagnitude t = 0 := by simp [packedMagnitude, h0]
    rw [narrowValue_of_finite hfinite, hp] at h
    have hfinite80 : (0 : BitVec 15) ≠ 0x7FFF := by decide
    rw [expandFields_of_zero (Nat.zero_lt_of_lt hw.ew_gt) h0.1 h0.2, zeroFields,
      valueF80_of_finite (by rwa [unpackF80_packF80]), unpackF80_packF80, ← h]
    simp [grid]

end Widening

/-- Settles O36: at any widths, taken at the two narrow formats. -/
theorem expandKeepsTheSignAndIsCanonical : Obligations.ExpandKeepsTheSignAndIsCanonical := by
  refine ⟨fun b => ?_, fun b => ?_⟩
  · rw [expandF32, unpackF80_packF80, classifyF80_packF80]
    exact expandFields_sign_class widthsF32 _
  · rw [expandF64, unpackF80_packF80, classifyF80_packF80]
    exact expandFields_sign_class widthsF64 _

end Sys2Proof.Machine
end

section
/-! ### Narrowing: the two tails that round (R86 to R91) -/

namespace Sys2Proof.Machine

theorem toNat_withoutIntBit (m : BitVec 64) : (withoutIntBit m).toNat = m.toNat % 2 ^ 63 := by
  rw [withoutIntBit, BitVec.toNat_and]
  exact Nat.and_two_pow_sub_one_eq_mod m.toNat 63

theorem toNat_withIntBit (m : BitVec 64) : (withIntBit m).toNat = m.toNat % 2 ^ 63 + 2 ^ 63 := by
  have hmask : m ||| 0x8000000000000000 = 0x8000000000000000 ||| withoutIntBit m := by
    have htop : (0x8000000000000000 : BitVec 64) = BitVec.twoPow 64 63 := rfl
    refine BitVec.eq_of_getLsbD_eq fun i hi => ?_
    rw [BitVec.getLsbD_or, BitVec.getLsbD_or, getLsbD_withoutIntBit, htop, BitVec.getLsbD_twoPow]
    obtain hlt | rfl : i < 63 ∨ i = 63 := by omega
    · simp [hlt, hlt.ne']
    · simp
  have hlt : m.toNat % 2 ^ 63 < 2 ^ 63 := Nat.mod_lt _ (by positivity)
  rw [withIntBit, hmask, BitVec.toNat_or, toNat_withoutIntBit]
  exact (or_two_pow_of_lt hlt).trans (Nat.add_comm _ _)

/-- What rounding to nearest even adds to the retained field (R88). -/
def roundUp (m shift : Nat) : Nat :=
  if 2 ^ (shift - 1) < m % 2 ^ shift ∨ (m % 2 ^ shift = 2 ^ (shift - 1) ∧ m / 2 ^ shift % 2 = 1) then 1 else 0

theorem roundUp_le_one (m shift : Nat) : roundUp m shift ≤ 1 := by
  rw [roundUp]; split <;> decide

theorem roundNearestEven_eq (m shift : Nat) : roundNearestEven m shift = m / 2 ^ shift + roundUp m shift := by
  simp only [roundNearestEven, roundUp, Nat.shiftRight_eq_div_pow, apply_ite (m / 2 ^ shift + ·), Nat.add_zero]

/-- Rounding a fraction looks at the significand's low bits. -/
theorem roundUp_mod {k : Nat} (hk : k ≤ 63) (m : Nat) : roundUp (m % 2 ^ 63) k =
    if 2 ^ (k - 1) < m % 2 ^ k ∨ (m % 2 ^ k = 2 ^ (k - 1) ∧ m % 2 ^ 63 / 2 ^ k % 2 = 1) then 1 else 0 := by
  rw [roundUp, Nat.mod_mod_of_dvd _ (pow_dvd_pow 2 hk)]

theorem ofNat_expMax (ew : Nat) : BitVec.ofNat ew (expMax ew) = BitVec.allOnes ew := by
  rw [← toNat_eq_expMax_iff, BitVec.toNat_ofNat, Nat.mod_eq_of_lt]
  exact Nat.sub_lt (by positivity) Nat.one_pos

section Compress
variable {ew sw : Nat}

theorem roundAndPack_s (s : BitVec 1) (m shift eOut : Nat) : (roundAndPack ew sw s m shift eOut).s = s := by
  rw [roundAndPack]; split <;> rfl

/-- Packed, exponent and rounded significand are one number: the carry out of the significand is its carry (R89). -/
theorem packedMagnitude_roundAndPack {s : BitVec 1} {m shift eOut : Nat} (hm : m / 2 ^ shift < 2 ^ sw)
    (he : eOut + 1 < 2 ^ ew) : packedMagnitude (roundAndPack ew sw s m shift eOut) =
      eOut * 2 ^ sw + (m / 2 ^ shift + roundUp m shift) := by
  have hup := roundUp_le_one m shift
  rw [roundAndPack, roundNearestEven_eq, sigMax]
  split
  case isTrue hcarry =>
    have hfull : m / 2 ^ shift + roundUp m shift = 2 ^ sw := by omega
    rw [hfull, packedMagnitude, BitVec.toNat_ofNat, Nat.mod_eq_of_lt he, BitVec.ofNat_eq_ofNat, BitVec.toNat_ofNat,
      Nat.zero_mod]
    ring
  case isFalse hfits =>
    have hlt : m / 2 ^ shift + roundUp m shift < 2 ^ sw := by
      have hpos : 0 < 2 ^ sw := by positivity
      omega
    rw [packedMagnitude, BitVec.toNat_ofNat, BitVec.toNat_ofNat, Nat.mod_eq_of_lt hlt, Nat.mod_eq_of_lt (by omega)]

variable {t : Fields 15 64}

/-- R86: the exponent `n` places above the deepest one that does not flush. -/
theorem compressFields_of_denormal_tail (hw : NarrowWidths ew sw) {n : Nat}
    (hE : t.e.toNat = 16383 - bias ew - sw + n) (hn : n ≤ sw) :
    compressFields ew sw t = roundAndPack ew sw t.s (withIntBit t.m).toNat (64 - n) 0 := by
  obtain ⟨hew, -, hsw, hrange⟩ := hw
  have hmax : t.e ≠ 0x7FFF := toNat_lt_max_iff.mp (by omega)
  have hrebase : rebase ew t.e = n - sw := by rw [rebase, hE]; omega
  have hexpMax := expMax_eq (ew := ew) (by omega)
  have hover : ¬ (expMax ew : Int) ≤ n - sw := by omega
  have htail : (n : Int) - sw ≤ 0 := by omega
  have hflush : ¬ (n : Int) - sw < -sw := by omega
  have hshift : narrowShift sw + (-((n : Int) - sw) + 1).toNat = 64 - n := by rw [narrowShift]; omega
  simp only [compressFields, if_neg hmax, hrebase, if_neg hover, if_pos htail, if_neg hflush, hshift]

/-- R87: the exponent `e1` places above the smallest normal's predecessor. -/
theorem compressFields_of_normal_tail (hw : NarrowWidths ew sw) {e1 : Nat} (hE : t.e.toNat = 16383 - bias ew + e1)
    (h0 : 0 < e1) (h1 : e1 < expMax ew) :
    compressFields ew sw t = roundAndPack ew sw t.s (withoutIntBit t.m).toNat (63 - sw) e1 := by
  obtain ⟨hew, -, hsw, hrange⟩ := hw
  have hexpMax := expMax_eq (ew := ew) (by omega)
  have hmax : t.e ≠ 0x7FFF := toNat_lt_max_iff.mp (by omega)
  have hrebase : rebase ew t.e = e1 := by rw [rebase, hE]; omega
  have hover : ¬ (expMax ew : Int) ≤ e1 := by omega
  have htail : ¬ (e1 : Int) ≤ 0 := by omega
  simp only [compressFields, if_neg hmax, hrebase, if_neg hover, if_neg htail, Int.toNat_natCast, narrowShift]

theorem packedMagnitude_denormal_tail (hw : NarrowWidths ew sw) {n : Nat}
    (hE : t.e.toNat = 16383 - bias ew - sw + n) (hn : n ≤ sw) :
    packedMagnitude (compressFields ew sw t) =
      (t.m.toNat % 2 ^ 63 + 2 ^ 63) / 2 ^ (64 - n) + roundUp (t.m.toNat % 2 ^ 63 + 2 ^ 63) (64 - n) := by
  have hkept : (t.m.toNat % 2 ^ 63 + 2 ^ 63) / 2 ^ (64 - n) < 2 ^ sw := by
    refine Nat.div_lt_of_lt_mul ?_
    calc t.m.toNat % 2 ^ 63 + 2 ^ 63 < 2 ^ 64 := by omega
      _ ≤ 2 ^ (64 - n) * 2 ^ sw := by
        rw [← pow_add]
        exact Nat.pow_le_pow_right (by decide) (by omega)
  rw [compressFields_of_denormal_tail hw hE hn, toNat_withIntBit, packedMagnitude_roundAndPack hkept
    (Nat.one_lt_two_pow (Nat.zero_lt_of_lt hw.ew_gt).ne'), Nat.zero_mul, Nat.zero_add]

theorem packedMagnitude_normal_tail (hw : NarrowWidths ew sw) {e1 : Nat} (hE : t.e.toNat = 16383 - bias ew + e1)
    (h0 : 0 < e1) (h1 : e1 < expMax ew) :
    packedMagnitude (compressFields ew sw t) = e1 * 2 ^ sw +
      (t.m.toNat % 2 ^ 63 / 2 ^ (63 - sw) + roundUp (t.m.toNat % 2 ^ 63) (63 - sw)) := by
  have hkept : t.m.toNat % 2 ^ 63 / 2 ^ (63 - sw) < 2 ^ sw := by
    refine Nat.div_lt_of_lt_mul ?_
    rw [← pow_add, Nat.sub_add_cancel hw.sw_lt.le]
    exact Nat.mod_lt _ (by positivity)
  have he : e1 + 1 < 2 ^ ew := by unfold expMax at h1; omega
  rw [compressFields_of_normal_tail hw hE h0 h1, toNat_withoutIntBit, packedMagnitude_roundAndPack hkept he]

/-- The sign is propagated in every branch (R90). -/
theorem compressFields_s (t : Fields 15 64) : (compressFields ew sw t).s = t.s := by
  simp only [compressFields, apply_ite Fields.s, roundAndPack_s, infNarrow, zeroFields, ite_self]

/-- Below the maximum exponent only the fraction of the significand is looked at (R91). -/
theorem compressFields_congr {s : BitVec 1} {e : BitVec 15} {m m' : BitVec 64} (he : e ≠ 0x7FFF)
    (hm : fraction m = fraction m') : compressFields ew sw ⟨s, e, m⟩ = compressFields ew sw ⟨s, e, m'⟩ := by
  have hmod : m.toNat % 2 ^ 63 = m'.toNat % 2 ^ 63 := by
    simpa [fraction, BitVec.extractLsb'_toNat] using congrArg BitVec.toNat hm
  simp only [compressFields, if_neg he, toNat_withIntBit, toNat_withoutIntBit, hmod]

/-- A NaN's payload keeps the quiet bit set, so the result is a quiet NaN (R82, R93 b). -/
theorem classify_compressFields_of_nan {n : Nat} (hew : 0 < ew) (hn : n ≤ 62) (he : t.e = 0x7FFF)
    (hm : fraction t.m ≠ 0) : classifyNarrow (compressFields ew (1 + n) t) = .quietNaN := by
  obtain ⟨-, -, -, hquiet, -⟩ := classifyNarrow_table hew (compressFields ew (1 + n) t)
  have hbit : (nanPayload (1 + n) t.m).getLsbD (1 + n - 1) = true := by
    rw [nanPayload_eq_append hn, Nat.add_sub_cancel_left, BitVec.getLsbD_append, if_neg (lt_irrefl n), Nat.sub_self]
    rfl
  have hne : nanPayload (1 + n) t.m ≠ 0 := fun h => by
    rw [h] at hbit
    simp at hbit
  rw [compressFields_of_nan he hm] at hquiet ⊢
  exact hquiet.mpr ⟨ofNat_expMax ew, hne, hbit⟩

end Compress

theorem toNat_packF32 (t : Fields 8 23) : (packF32 t).toNat = t.s.toNat * 2 ^ 31 + packedMagnitude t := by
  rw [packedMagnitude, ← Nat.add_assoc]
  exact toNat_append_fields t.s t.e t.m

theorem toNat_packF64 (t : Fields 11 52) : (packF64 t).toNat = t.s.toNat * 2 ^ 63 + packedMagnitude t := by
  rw [packedMagnitude, ← Nat.add_assoc]
  exact toNat_append_fields t.s t.e t.m

/-- Settles O40: the normal tail at any widths, taken at the two narrow formats. -/
theorem compressRoundsTheNormalTail : Obligations.CompressRoundsTheNormalTail := by
  refine ⟨fun s e m hlow hhigh => ?_, fun s e m hlow hhigh => ?_⟩
  · have hE : e.toNat = 16383 - bias 8 + (e.toNat - 16256) := by rw [show bias 8 = 127 from rfl]; omega
    have hmax : e.toNat - 16256 < expMax 8 := by rw [show expMax 8 = 255 from rfl]; omega
    rw [compressF32_packF80, toNat_packF32, compressFields_s,
      packedMagnitude_normal_tail (t := ⟨s, e, m⟩) widthsF32 hE (by omega) hmax, roundUp_mod (by decide)]
    simp only [Nat.add_assoc]
  · have hE : e.toNat = 16383 - bias 11 + (e.toNat - 15360) := by rw [show bias 11 = 1023 from rfl]; omega
    have hmax : e.toNat - 15360 < expMax 11 := by rw [show expMax 11 = 2047 from rfl]; omega
    rw [compressF64_packF80, toNat_packF64, compressFields_s,
      packedMagnitude_normal_tail (t := ⟨s, e, m⟩) widthsF64 hE (by omega) hmax, roundUp_mod (by decide)]
    simp only [Nat.add_assoc]

/-- Settles O41: the denormal tail at any widths, taken at the two narrow formats. -/
theorem compressRoundsTheDenormalTail : Obligations.CompressRoundsTheDenormalTail := by
  refine ⟨fun s e m hlow hhigh => ?_, fun s e m hlow hhigh => ?_⟩
  · have hE : e.toNat = 16383 - bias 8 - 23 + (e.toNat - 16233) := by rw [show bias 8 = 127 from rfl]; omega
    have hshift : 64 - (e.toNat - 16233) = 41 + (0x3F80 - e.toNat) := by omega
    rw [compressF32_packF80, toNat_packF32, compressFields_s,
      packedMagnitude_denormal_tail (t := ⟨s, e, m⟩) widthsF32 hE (by omega), hshift, ← Nat.add_assoc]
    rfl
  · have hE : e.toNat = 16383 - bias 11 - 52 + (e.toNat - 15308) := by rw [show bias 11 = 1023 from rfl]; omega
    have hshift : 64 - (e.toNat - 15308) = 12 + (0x3C00 - e.toNat) := by omega
    rw [compressF64_packF80, toNat_packF64, compressFields_s,
      packedMagnitude_denormal_tail (t := ⟨s, e, m⟩) widthsF64 hE (by omega), hshift, ← Nat.add_assoc]
    rfl

/-- Settles O42: the sign in every branch, and the NaN's branch. -/
theorem compressKeepsTheSignAndNaNs : Obligations.CompressKeepsTheSignAndNaNs := by
  intro x
  refine ⟨?_, ?_, fun hx => ?_⟩
  · rw [compressF32, unpackF32_packF32, compressFields_s]
  · rw [compressF64, unpackF64_packF64, compressFields_s]
  · obtain ⟨-, -, -, -, -, -, -, hquiet, hsignalling, hpseudo⟩ := classifyFields80_table (unpackF80 x)
    have hnan : (unpackF80 x).e = 0x7FFF ∧ fraction (unpackF80 x).m ≠ 0 := by
      simp only [List.mem_cons, List.not_mem_nil, or_false] at hx
      obtain hx | hx | hx := hx
      · exact (hquiet.mp hx).imp id And.left
      · exact (hsignalling.mp hx).imp id And.left
      · exact (hpseudo.mp hx).imp id And.left
    obtain ⟨he, hm⟩ := hnan
    rw [compressF32, classifyF32_packF32, compressF64, classifyF64_packF64]
    exact ⟨classify_compressFields_of_nan (n := 22) (by decide) (by decide) he hm,
      classify_compressFields_of_nan (n := 51) (by decide) (by decide) he hm⟩

/-- Settles O43: the tails look at the fraction, the other branches at sign and exponent. -/
theorem compressIgnoresTheIntegerBit : Obligations.CompressIgnoresTheIntegerBit := by
  intro s e m m' he hm
  rw [compressF32_packF80, compressF32_packF80, compressF64_packF80, compressF64_packF80]
  exact ⟨congrArg packF32 (compressFields_congr he hm), congrArg packF64 (compressFields_congr he hm)⟩

end Sys2Proof.Machine
end

section
/-! ### Rounding to nearest even on the grid (R88, R93) -/

namespace Sys2Proof.Machine

/-- `x` lies between the grid's places `p` and `p + 1`, and `r` is the nearer one, on a tie the even one. -/
structure RoundsEven (sw : Nat) (x : ℚ) (p r : Nat) : Prop where
  low : (grid sw p : ℚ) ≤ x
  high : x < grid sw (p + 1)
  nearer : (r = p ∧ x - grid sw p < grid sw (p + 1) - x) ∨ (r = p + 1 ∧ grid sw (p + 1) - x < x - grid sw p) ∨
    ((r = p ∨ r = p + 1) ∧ r % 2 = 0 ∧ x - grid sw p = grid sw (p + 1) - x)

section RoundsEven
variable {sw : Nat} {x : ℚ} {p r : Nat}

theorem RoundsEven.eq_or (h : RoundsEven sw x p r) : r = p ∨ r = p + 1 := by
  obtain ⟨rfl, -⟩ | ⟨rfl, -⟩ | ⟨hr, -⟩ := h.nearer
  · exact .inl rfl
  · exact .inr rfl
  · exact hr

/-- No number outside the two places is nearer, and one as near makes it a tie. -/
theorem RoundsEven.abs_sub_le (h : RoundsEven sw x p r) {y : ℚ} (hy : y ≤ grid sw p ∨ grid sw (p + 1) ≤ y) :
    |x - grid sw r| ≤ |x - y| ∧ (|x - grid sw r| = |x - y| → y ≠ grid sw r → r % 2 = 0) := by
  obtain ⟨hlow, hhigh, hnearer⟩ := h
  have hlo : |x - grid sw p| = x - grid sw p := abs_of_nonneg (sub_nonneg.mpr hlow)
  have hhi : |x - grid sw (p + 1)| = grid sw (p + 1) - x := by rw [abs_sub_comm, abs_of_pos (sub_pos.mpr hhigh)]
  have hdist : y ≤ grid sw p ∧ |x - y| = x - y ∨ grid sw (p + 1) ≤ y ∧ |x - y| = y - x := by
    obtain hy | hy := hy
    · exact .inl ⟨hy, abs_of_nonneg (by linarith)⟩
    · exact .inr ⟨hy, by rw [abs_sub_comm, abs_of_nonneg (by linarith)]⟩
  obtain ⟨rfl, hlt⟩ | ⟨rfl, hlt⟩ | ⟨hr, heven, htie⟩ := hnearer
  · obtain ⟨hy, habs⟩ | ⟨hy, habs⟩ := hdist
    · exact ⟨by linarith, fun he hne => absurd (by linarith) hne⟩
    · exact ⟨by linarith, fun he => absurd he (by linarith)⟩
  · obtain ⟨hy, habs⟩ | ⟨hy, habs⟩ := hdist
    · exact ⟨by linarith, fun he => absurd he (by linarith)⟩
    · exact ⟨by linarith, fun he hne => absurd (by linarith) hne⟩
  · have hmid : |x - grid sw r| = x - grid sw p := by
      obtain rfl | rfl := hr
      · exact hlo
      · exact hhi.trans htie.symm
    obtain ⟨hy, habs⟩ | ⟨hy, habs⟩ := hdist
    · exact ⟨by linarith, fun _ _ => heven⟩
    · exact ⟨by linarith, fun _ _ => heven⟩

/-- The shape both tails have: `m` shifted by `k`, in steps of `d`, with the parity of the packed pattern. -/
theorem roundsEven_of_shift {m k d : Nat} (hk : 0 < k) (hd : 0 < d) (hlow : grid sw p = m / 2 ^ k * d)
    (hhigh : grid sw (p + 1) = (m / 2 ^ k + 1) * d) (hparity : p % 2 = m / 2 ^ k % 2) :
    RoundsEven sw (m / 2 ^ k * d) p (p + roundUp m k) := by
  have hpow : 2 ^ k = 2 * 2 ^ (k - 1) := by rw [← pow_succ', Nat.sub_add_cancel hk]
  have hup : roundUp m k =
      if 2 ^ (k - 1) < m % 2 ^ k ∨ (m % 2 ^ k = 2 ^ (k - 1) ∧ m / 2 ^ k % 2 = 1) then 1 else 0 := rfl
  have hsplit := Nat.div_add_mod' m (2 ^ k)
  have hgone : m % 2 ^ k < 2 * 2 ^ (k - 1) := hpow ▸ Nat.mod_lt _ (by positivity)
  have hpos : 0 < 2 ^ (k - 1) := by positivity
  have hpowQ : (2 : ℚ) ^ k = 2 * (2 ^ (k - 1) : Nat) := by exact_mod_cast hpow
  generalize m / 2 ^ k = kept at *
  generalize m % 2 ^ k = gone at *
  generalize 2 ^ (k - 1) = half at *
  -- In units of `c`, one of the discarded bits, a step is `2 * half` and `x` is `gone` above the lower place.
  obtain ⟨c, hc, hdc⟩ : ∃ c : ℚ, 0 < c ∧ (d : ℚ) = 2 * half * c := ⟨d / (2 * half), by positivity, by field_simp⟩
  have hm : (m : ℚ) = kept * (2 * half) + gone := by rw [← hpowQ]; exact_mod_cast hsplit.symm
  have hx : (m : ℚ) / 2 ^ k * d = (kept * (2 * half) + gone) * c := by rw [hm, hpowQ, hdc]; field_simp
  have hbelow : (m : ℚ) / 2 ^ k * d - grid sw p = gone * c := by rw [hx, hlow]; push_cast; rw [hdc]; ring
  have habove : grid sw (p + 1) - (m : ℚ) / 2 ^ k * d = (2 * half - gone) * c := by
    rw [hx, hhigh]; push_cast; rw [hdc]; ring
  have hgoneQ : (gone : ℚ) < 2 * half := by exact_mod_cast hgone
  refine ⟨sub_nonneg.mp (hbelow ▸ by positivity), sub_pos.mp (habove ▸ mul_pos (sub_pos.mpr hgoneQ) hc), ?_⟩
  rw [hbelow, habove, hup]
  obtain hlt | heq | hgt := lt_trichotomy gone half
  · have hltQ : (gone : ℚ) < half := by exact_mod_cast hlt
    exact .inl ⟨by rw [if_neg (by omega), Nat.add_zero], mul_lt_mul_of_pos_right (by linarith) hc⟩
  · have htie : (gone : ℚ) * c = (2 * half - gone) * c := by rw [heq]; ring
    obtain heven | hodd := Nat.mod_two_eq_zero_or_one kept
    · exact .inr (.inr ⟨.inl (by rw [if_neg (by omega), Nat.add_zero]), by rw [if_neg (by omega)]; omega, htie⟩)
    · exact .inr (.inr ⟨.inr (by rw [if_pos (by omega)]), by rw [if_pos (by omega)]; omega, htie⟩)
  · have hgtQ : (half : ℚ) < gone := by exact_mod_cast hgt
    exact .inr (.inl ⟨by rw [if_pos (by omega)], mul_lt_mul_of_pos_right (by linarith) hc⟩)

/-- Less than half the smallest number rounds to zero. -/
theorem roundsEven_zero (h0 : 0 ≤ x) (hx : 2 * x < 1) : RoundsEven sw x 0 0 := by
  have hzero : grid sw 0 = 0 := grid_of_le (Nat.zero_le _)
  have h1 : grid sw 1 = 1 := grid_of_le Nat.one_le_two_pow
  refine ⟨by rwa [hzero, Nat.cast_zero], ?_, .inl ⟨rfl, ?_⟩⟩ <;> rw [Nat.zero_add, h1]
  · push_cast; linarith
  · rw [hzero]; push_cast; linarith

/-- Rounding reaches an even place `n` exactly from the middle between `n - 1` and `n` on. -/
theorem RoundsEven.lt_iff (h : RoundsEven sw x p r) {n : Nat} (hp : p < n) (heven : n % 2 = 0) :
    r < n ↔ 2 * x < grid sw (n - 1) + grid sw n := by
  have hr := h.eq_or
  obtain ⟨hlow, hhigh, hnearer⟩ := h
  obtain hlt | heq := (Nat.le_sub_one_of_lt hp).lt_or_eq
  · have hmono : (grid sw (p + 1) : ℚ) ≤ grid sw (n - 1) := by exact_mod_cast (grid_strictMono sw).monotone hlt
    have hstep : (grid sw (n - 1) : ℚ) < grid sw n := by exact_mod_cast grid_strictMono sw (by omega)
    exact iff_of_true (by omega) (by linarith)
  · obtain rfl : n = p + 1 := by omega
    rw [Nat.add_sub_cancel]
    obtain ⟨rfl, hlt⟩ | ⟨rfl, hlt⟩ | ⟨rfl | rfl, hr2, htie⟩ := hnearer
    · exact iff_of_true (by omega) (by linarith)
    · exact iff_of_false (by omega) (by linarith)
    · omega
    · exact iff_of_false (by omega) (by linarith)

end RoundsEven

/-! ### Narrowing of canonical finite patterns rounds -/

theorem ulp_mono {e e' : Nat} (h : e ≤ e') : ulp e ≤ ulp e' := by
  rw [← Nat.add_sub_cancel' h, ulp_add]
  exact le_mul_of_one_le_left (ulp_pos e).le (one_le_pow₀ one_le_two)

section Compress
variable {ew sw : Nat} {t : Fields 15 64}

/-- The place after the largest number: the packed infinity. -/
def infPlace (ew sw : Nat) : Nat := expMax ew * 2 ^ sw

theorem grid_infPlace (hew : 0 < expMax ew) : grid sw (infPlace ew sw) = 2 ^ sw * 2 ^ (expMax ew - 1) := by
  simpa [infPlace] using grid_of_exponent hew (Nat.zero_le (2 ^ sw))

theorem packedMagnitude_infNarrow (s : BitVec 1) : packedMagnitude (infNarrow ew sw s) = infPlace ew sw := by
  rw [infNarrow, ofNat_expMax, packedMagnitude, BitVec.toNat_allOnes]
  simp [infPlace, expMax]

/-- The number of a finite F80 pattern without its sign, in units of the narrow format's smallest number. -/
def scaledMagnitude (ew sw : Nat) (t : Fields 15 64) : ℚ :=
  t.m.toNat * ulp (max t.e.toNat 1) / narrowUnit ew sw

theorem scaledMagnitude_nonneg (t : Fields 15 64) : 0 ≤ scaledMagnitude ew sw t :=
  div_nonneg (mul_nonneg (Nat.cast_nonneg _) (ulp_pos _).le) (narrowUnit_pos ew sw).le

/-- What narrowing is to give for `t`: the infinity where the number is too large altogether, else the number rounded to
nearest even on the grid, the infinity taken as the place after the largest number. -/
def RoundedTo (ew sw : Nat) (t : Fields 15 64) (r : Nat) : Prop :=
  (grid sw (infPlace ew sw) ≤ scaledMagnitude ew sw t ∧ r = infPlace ew sw) ∨
    ∃ p < infPlace ew sw, RoundsEven sw (scaledMagnitude ew sw t) p r

theorem two_pow_le_infPlace (hw : NarrowWidths ew sw) : 2 ^ sw ≤ infPlace ew sw := by
  have hew := hw.ew_gt
  have hexpMax := expMax_eq (ew := ew) (by omega)
  exact Nat.le_mul_of_pos_left _ (by omega)

/-- Far below the smallest number everything flushes to zero (R85), denormals and zeros of F80 included. -/
theorem compress_flush (hw : NarrowWidths ew sw) (he : max t.e.toNat 1 < 16383 - bias ew - sw) :
    RoundedTo ew sw t (packedMagnitude (compressFields ew sw t)) := by
  have hflush : packedMagnitude (compressFields ew sw t) = 0 := by
    have hmax : t.e ≠ 0x7FFF := toNat_lt_max_iff.mp (by omega)
    rw [compressFields_of_flush hmax (by rw [rebase]; omega)]
    simp [packedMagnitude, zeroFields]
  have hhalf : 2 * scaledMagnitude ew sw t < 1 := by
    have hm : (t.m.toNat : ℚ) < 2 ^ 64 := by exact_mod_cast t.m.isLt
    have hstep : 2 * ulp (max t.e.toNat 1) ≤ ulp (16383 - bias ew - sw) := by
      calc 2 * ulp (max t.e.toNat 1) = ulp (max t.e.toNat 1 + 1) := by rw [ulp_add, pow_one]
        _ ≤ ulp (16383 - bias ew - sw) := ulp_mono he
    have hunit := narrowUnit_eq_mul_ulp hw (n := 0) (by decide)
    rw [Nat.sub_zero, Nat.add_zero] at hunit
    rw [scaledMagnitude, ← mul_div_assoc, div_lt_one (narrowUnit_pos ew sw), hunit]
    calc 2 * (t.m.toNat * ulp (max t.e.toNat 1)) = t.m.toNat * (2 * ulp (max t.e.toNat 1)) := by ring
      _ ≤ t.m.toNat * ulp (16383 - bias ew - sw) := mul_le_mul_of_nonneg_left hstep (by positivity)
      _ < 2 ^ 64 * ulp (16383 - bias ew - sw) := mul_lt_mul_of_pos_right hm (ulp_pos _)
  rw [hflush]
  exact .inr ⟨0, (Nat.two_pow_pos sw).trans_le (two_pow_le_infPlace hw),
    roundsEven_zero (scaledMagnitude_nonneg t) hhalf⟩

/-- A significand with its integer bit is its fraction and that bit. -/
theorem fraction_add_intBit {m : BitVec 64} (h : 2 ^ 63 ≤ m.toNat) : m.toNat % 2 ^ 63 + 2 ^ 63 = m.toNat := by
  have hlt := m.isLt
  omega

/-- On the denormal tail the grid is the whole numbers, and the significand is shifted to them (R86). -/
theorem compress_denormal (hw : NarrowWidths ew sw) (htop : 2 ^ 63 ≤ t.m.toNat) {n : Nat}
    (hE : t.e.toNat = 16383 - bias ew - sw + n) (hn : n ≤ sw) :
    RoundedTo ew sw t (packedMagnitude (compressFields ew sw t)) := by
  have hrange := hw.range
  have hsw := hw.sw_lt
  have hkept : t.m.toNat / 2 ^ (64 - n) < 2 ^ sw := by
    refine Nat.div_lt_of_lt_mul (t.m.isLt.trans_le ?_)
    rw [← pow_add]
    exact Nat.pow_le_pow_right (by decide) (by omega)
  have hx : scaledMagnitude ew sw t = t.m.toNat / 2 ^ (64 - n) * (1 : Nat) := by
    have hulp := ulp_pos (16383 - bias ew - sw + n)
    rw [scaledMagnitude, max_eq_left (by omega), narrowUnit_eq_mul_ulp hw (n := n) (by omega), hE]
    push_cast
    field_simp
  rw [packedMagnitude_denormal_tail hw hE hn, fraction_add_intBit htop]
  refine .inr ⟨_, hkept.trans_le (two_pow_le_infPlace hw), ?_⟩
  rw [hx]
  exact roundsEven_of_shift (by omega) Nat.one_pos (by rw [grid_of_le hkept.le, Nat.mul_one])
    (by rw [grid_of_le hkept, Nat.mul_one]) rfl

/-- On the normal tail the kept field is the implicit leading 1 and the fraction's high bits, in steps of the exponent
(R87). -/
theorem compress_normal (hw : NarrowWidths ew sw) (htop : 2 ^ 63 ≤ t.m.toNat) {e1 : Nat}
    (hE : t.e.toNat = 16383 - bias ew + e1) (h0 : 0 < e1) (h1 : e1 < expMax ew) :
    RoundedTo ew sw t (packedMagnitude (compressFields ew sw t)) := by
  have ⟨_, hsw, hsw', hrange⟩ := hw
  have hfrac : t.m.toNat % 2 ^ 63 / 2 ^ (63 - sw) < 2 ^ sw := by
    refine Nat.div_lt_of_lt_mul ?_
    rw [← pow_add, Nat.sub_add_cancel hsw'.le]
    exact Nat.mod_lt _ (by positivity)
  have hkept : t.m.toNat / 2 ^ (63 - sw) = 2 ^ sw + t.m.toNat % 2 ^ 63 / 2 ^ (63 - sw) := by
    have hsplit : 2 ^ 63 = 2 ^ sw * 2 ^ (63 - sw) := by rw [← pow_add, Nat.add_sub_cancel' hsw'.le]
    conv_lhs => rw [← fraction_add_intBit htop, hsplit]
    rw [Nat.add_mul_div_right _ _ (by positivity), Nat.add_comm, hsplit]
  have heven : 2 ^ sw = 2 * 2 ^ (sw - 1) := by rw [← pow_succ', Nat.sub_add_cancel hsw]
  have hparity : t.m.toNat % 2 ^ 63 / 2 ^ (63 - sw) % 2 = t.m.toNat / 2 ^ (63 - sw) % 2 := by omega
  have hround : roundUp (t.m.toNat % 2 ^ 63) (63 - sw) = roundUp t.m.toNat (63 - sw) := by
    rw [roundUp_mod (by omega), hparity, roundUp]
  have hx : scaledMagnitude ew sw t = t.m.toNat / 2 ^ (63 - sw) * (2 ^ (e1 - 1) : Nat) := by
    have hu := narrowUnit_pos ew sw
    have hulp : ulp t.e.toNat = 2 ^ (e1 - 1) * narrowUnit ew sw / 2 ^ (63 - sw) := by
      rw [hE, ← mul_ulp_of_normal hw h0]; field_simp
    rw [scaledMagnitude, max_eq_left (by omega), hulp]
    push_cast
    field_simp
  rw [packedMagnitude_normal_tail hw hE h0 h1, hround, ← Nat.add_assoc]
  refine .inr ⟨e1 * 2 ^ sw + t.m.toNat % 2 ^ 63 / 2 ^ (63 - sw), ?_, ?_⟩
  · calc e1 * 2 ^ sw + t.m.toNat % 2 ^ 63 / 2 ^ (63 - sw) < (e1 + 1) * 2 ^ sw := by rw [Nat.succ_mul]; omega
      _ ≤ infPlace ew sw := Nat.mul_le_mul_right _ h1
  · rw [hx]
    refine roundsEven_of_shift (by omega) (by positivity) ?_ ?_ ?_
    · rw [grid_of_exponent h0 hfrac.le, hkept]
    · rw [Nat.add_assoc, grid_of_exponent h0 hfrac, hkept, Nat.add_assoc]
    · rw [← hparity, heven, ← Nat.mul_assoc, Nat.mul_right_comm, Nat.mul_comm _ 2]
      omega

/-- From the first exponent past the format's everything is an infinity (R84). -/
theorem compress_overflow (hw : NarrowWidths ew sw) (hmax : t.e ≠ 0x7FFF) (htop : 2 ^ 63 ≤ t.m.toNat)
    (hE : 16383 - bias ew + expMax ew ≤ t.e.toNat) :
    RoundedTo ew sw t (packedMagnitude (compressFields ew sw t)) := by
  have ⟨hew, _, hsw, hrange⟩ := hw
  have hexpMax := expMax_eq (ew := ew) (by omega)
  have hinf := mul_ulp_of_normal hw (e := expMax ew) (by omega)
  have hplaces : (2 : ℚ) ^ 63 = 2 ^ sw * 2 ^ (63 - sw) := by rw [← pow_add, Nat.add_sub_cancel' hsw.le]
  have hm : (2 : ℚ) ^ 63 ≤ t.m.toNat := by exact_mod_cast htop
  rw [compressFields_of_overflow hmax (by rw [rebase]; omega), packedMagnitude_infNarrow]
  refine .inl ⟨?_, rfl⟩
  rw [scaledMagnitude, max_eq_left (by omega), grid_infPlace (by omega), le_div_iff₀ (narrowUnit_pos ew sw)]
  push_cast
  calc (2 : ℚ) ^ sw * 2 ^ (expMax ew - 1) * narrowUnit ew sw
      = 2 ^ 63 * ulp (16383 - bias ew + expMax ew) := by rw [mul_assoc, ← hinf, hplaces]; ring
    _ ≤ t.m.toNat * ulp t.e.toNat := mul_le_mul hm (ulp_mono hE) (ulp_pos _).le (by positivity)

/-- Narrowing a canonical finite pattern, a zero or denormal or one with its integer bit, rounds its number. -/
theorem compress_roundedTo (hw : NarrowWidths ew sw) (hmax : t.e ≠ 0x7FFF) (hcan : t.e = 0 ∨ 2 ^ 63 ≤ t.m.toNat) :
    RoundedTo ew sw t (packedMagnitude (compressFields ew sw t)) := by
  have hrange := hw.range
  by_cases hflush : max t.e.toNat 1 < 16383 - bias ew - sw
  · exact compress_flush hw hflush
  have h0 : t.e ≠ 0 := fun h => by
    rw [h, BitVec.ofNat_eq_ofNat, BitVec.toNat_ofNat, Nat.zero_mod] at hflush
    omega
  have htop := hcan.resolve_left h0
  by_cases hden : t.e.toNat ≤ 16383 - bias ew
  · exact compress_denormal hw htop (n := t.e.toNat - (16383 - bias ew - sw)) (by bv_omega) (by omega)
  by_cases hover : 16383 - bias ew + expMax ew ≤ t.e.toNat
  · exact compress_overflow hw hmax htop hover
  · exact compress_normal hw htop (e1 := t.e.toNat - (16383 - bias ew)) (by omega) (by omega) (by omega)

end Compress

end Sys2Proof.Machine
end

section
/-! ### Correct rounding of canonical finite patterns (R93 c, d) -/

namespace Sys2Proof.Machine

theorem signFactor_mul_self (s : BitVec 1) : signFactor s * signFactor s = 1 := by
  rw [← abs_mul_abs_self, abs_signFactor, one_mul]

section Compress
variable {ew sw : Nat} {t : Fields 15 64} {r : Nat}

theorem infPlace_even (hw : NarrowWidths ew sw) : infPlace ew sw % 2 = 0 := by
  have heven : 2 ^ sw = 2 * 2 ^ (sw - 1) := by rw [← pow_succ', Nat.sub_add_cancel hw.sw_pos]
  rw [infPlace, heven, Nat.mul_left_comm, Nat.mul_mod_right]

/-- The number from which a narrow format rounds to infinity: half a step above its largest number. -/
def overflowThreshold (ew sw : Nat) : ℚ :=
  ((grid sw (infPlace ew sw - 1) : ℚ) + grid sw (infPlace ew sw)) / 2 * narrowUnit ew sw

theorem RoundedTo.le_infPlace (h : RoundedTo ew sw t r) : r ≤ infPlace ew sw := by
  obtain ⟨-, rfl⟩ | ⟨p, hp, hround⟩ := h
  · exact le_rfl
  · obtain rfl | rfl := hround.eq_or
    · exact hp.le
    · exact hp

theorem grid_pred_infPlace_lt (hw : NarrowWidths ew sw) :
    (grid sw (infPlace ew sw - 1) : ℚ) < grid sw (infPlace ew sw) := by
  have hpos := (Nat.two_pow_pos sw).trans_le (two_pow_le_infPlace hw)
  exact_mod_cast grid_strictMono sw (Nat.sub_lt hpos Nat.one_pos)

/-- The rounded place is a number of the format exactly below the threshold. -/
theorem RoundedTo.lt_iff (hw : NarrowWidths ew sw) (h : RoundedTo ew sw t r) :
    r < infPlace ew sw ↔ scaledMagnitude ew sw t * narrowUnit ew sw < overflowThreshold ew sw := by
  rw [overflowThreshold, mul_lt_mul_iff_left₀ (narrowUnit_pos ew sw), lt_div_iff₀' two_pos]
  obtain ⟨hover, rfl⟩ | ⟨p, hp, hround⟩ := h
  · have hstep := grid_pred_infPlace_lt hw
    exact iff_of_false (lt_irrefl _) (by linarith)
  · exact hround.lt_iff hp (infPlace_even hw)

/-- Places of the grid, of either sign, are outside the two places that `x` lies between. -/
theorem signed_grid_outside (s s' : BitVec 1) (p p' : Nat) :
    signFactor s * signFactor s' * grid sw p' ≤ grid sw p ∨
      (grid sw (p + 1) : ℚ) ≤ signFactor s * signFactor s' * grid sw p' := by
  by_cases hs : s = s'
  · rw [hs, signFactor_mul_self, one_mul]
    have hmono := (grid_strictMono sw).monotone
    exact_mod_cast (Nat.lt_or_ge p p').symm.imp (fun h => hmono h) (fun h => hmono h)
  · rw [signFactor_of_ne hs, mul_neg, signFactor_mul_self, neg_one_mul]
    exact .inl ((neg_nonpos.mpr (Nat.cast_nonneg _)).trans (Nat.cast_nonneg _))

/-- The distance of two signed numbers in units of `u`. -/
theorem abs_signed_sub (s s' : BitVec 1) (x y : ℚ) {u : ℚ} (hu : 0 < u) :
    |signFactor s * (x * u) - signFactor s' * (y * u)| = |x - signFactor s * signFactor s' * y| * u := by
  have hfactor : signFactor s * (x * u) - signFactor s' * (y * u) =
      signFactor s * ((x - signFactor s * signFactor s' * y) * u) := by
    have hself := signFactor_mul_self s
    linear_combination (signFactor s' * y * u) * hself
  rw [hfactor, abs_signFactor_mul, abs_mul, abs_of_pos hu]

/-- The number of a canonical finite pattern is its sign times its scaled magnitude. -/
theorem value_eq_scaledMagnitude {q : ℚ} (hq : valueF80 (packF80 t) = some q) :
    t.e ≠ 0x7FFF ∧ q = signFactor t.s * (scaledMagnitude ew sw t * narrowUnit ew sw) := by
  have hmax : t.e ≠ 0x7FFF := fun h => by
    simp [valueF80, h] at hq
  have hvalue := valueF80_of_finite (b := packF80 t) (by rwa [unpackF80_packF80])
  rw [unpackF80_packF80, hq, Option.some_inj] at hvalue
  rw [scaledMagnitude, div_mul_cancel₀ _ (narrowUnit_pos ew sw).ne']
  exact ⟨hmax, hvalue⟩

/-- Below the threshold the narrowed pattern is nearest to the number, with an even packed magnitude on a tie. -/
theorem compressFields_nearest (hw : NarrowWidths ew sw) {q : ℚ} (hcan : t.e = 0 ∨ 2 ^ 63 ≤ t.m.toNat)
    (hq : valueF80 (packF80 t) = some q) (hlt : |q| < overflowThreshold ew sw) :
    ∃ r, narrowValue (compressFields ew sw t) = some r ∧ ∀ (z : Fields ew sw) (r' : ℚ), narrowValue z = some r' →
      |q - r| ≤ |q - r'| ∧
        (|q - r| = |q - r'| → r' ≠ r → packedMagnitude (compressFields ew sw t) % 2 = 0) := by
  obtain ⟨hmax, hval⟩ := value_eq_scaledMagnitude (ew := ew) (sw := sw) hq
  have hu := narrowUnit_pos ew sw
  have hx := scaledMagnitude_nonneg (ew := ew) (sw := sw) t
  have hround := compress_roundedTo hw hmax hcan
  have hs := compressFields_s (ew := ew) (sw := sw) t
  rw [hval, abs_signFactor_mul, abs_of_nonneg (mul_nonneg hx hu.le), ← hround.lt_iff hw] at hlt
  have hfinite : (compressFields ew sw t).e.toNat ≠ expMax ew := fun he => by
    rw [packedMagnitude, he, infPlace] at hlt
    omega
  obtain ⟨-, hinf⟩ | ⟨p, -, hp⟩ := hround
  · exact absurd hinf hlt.ne
  refine ⟨_, narrowValue_of_finite hfinite, fun z r' hz => ?_⟩
  rw [narrowValue_of_finite (narrowValue_eq_some_finite hz), Option.some_inj] at hz
  obtain ⟨hle, htie⟩ := hp.abs_sub_le (signed_grid_outside t.s z.s p (packedMagnitude z))
  rw [hs, hval, ← hz, abs_signed_sub _ _ _ _ hu, abs_signed_sub _ _ _ _ hu, signFactor_mul_self, one_mul]
  refine ⟨mul_le_mul_of_nonneg_right hle hu.le, fun heq hne => htie (mul_right_cancel₀ hu.ne' heq) fun hsame => hne ?_⟩
  linear_combination (signFactor t.s * narrowUnit ew sw) * hsame -
    (signFactor z.s * grid sw (packedMagnitude z) * narrowUnit ew sw) * signFactor_mul_self t.s

/-- From the threshold on the narrowed pattern is an infinity. -/
theorem compressFields_infinity (hw : NarrowWidths ew sw) {q : ℚ} (hcan : t.e = 0 ∨ 2 ^ 63 ≤ t.m.toNat)
    (hq : valueF80 (packF80 t) = some q) (hle : overflowThreshold ew sw ≤ |q|) :
    classifyNarrow (compressFields ew sw t) = .infinity := by
  obtain ⟨hmax, hval⟩ := value_eq_scaledMagnitude (ew := ew) (sw := sw) hq
  have hround := compress_roundedTo hw hmax hcan
  rw [hval, abs_signFactor_mul, abs_of_nonneg (mul_nonneg (scaledMagnitude_nonneg t) (narrowUnit_pos ew sw).le),
    ← not_lt, ← hround.lt_iff hw] at hle
  have hinf : compressFields ew sw t = infNarrow ew sw t.s :=
    fields_ext_packedMagnitude (compressFields_s t)
      ((hround.le_infPlace.antisymm (Nat.le_of_not_lt hle)).trans (packedMagnitude_infNarrow t.s).symm)
  obtain ⟨-, -, hinfinity, -⟩ := classifyNarrow_table (Nat.zero_lt_of_lt hw.ew_gt) (compressFields ew sw t)
  rw [hinfinity, hinf]
  exact ⟨ofNat_expMax ew, rfl⟩

/-- A finite pattern's number is below the threshold. -/
theorem abs_lt_overflowThreshold (hw : NarrowWidths ew sw) {z : Fields ew sw} {q : ℚ} (hz : narrowValue z = some q) :
    |q| < overflowThreshold ew sw := by
  have hfinite := narrowValue_eq_some_finite hz
  have hplace : packedMagnitude z ≤ infPlace ew sw - 1 := by
    have hlt : packedMagnitude z < infPlace ew sw := by
      refine (Nat.div_lt_iff_lt_mul (Nat.two_pow_pos sw)).mp ?_
      rw [packedMagnitude_div]
      exact toNat_lt_expMax_iff.mpr (mt toNat_eq_expMax_iff.mpr hfinite)
    omega
  have hgrid : (grid sw (packedMagnitude z) : ℚ) ≤ grid sw (infPlace ew sw - 1) := by
    exact_mod_cast (grid_strictMono sw).monotone hplace
  have hlast := grid_pred_infPlace_lt hw
  have hu := narrowUnit_pos ew sw
  rw [narrowValue_of_finite hfinite, Option.some_inj] at hz
  rw [← hz, abs_signFactor_mul, abs_of_nonneg (by positivity), overflowThreshold]
  exact mul_lt_mul_of_pos_right (by linarith) hu

/-- A number that the narrow format has is narrowed to itself. -/
theorem compressFields_exact (hw : NarrowWidths ew sw) {q : ℚ} (hcan : t.e = 0 ∨ 2 ^ 63 ≤ t.m.toNat)
    (hq : valueF80 (packF80 t) = some q) {z : Fields ew sw} (hz : narrowValue z = some q) :
    narrowValue (compressFields ew sw t) = some q := by
  obtain ⟨r, hr, hnearest⟩ := compressFields_nearest hw hcan hq (abs_lt_overflowThreshold hw hz)
  obtain ⟨hle, -⟩ := hnearest z q hz
  rw [sub_self, abs_zero] at hle
  rw [hr, sub_eq_zero.mp (abs_nonpos_iff.mp hle)]

/-- A finite narrow pattern is its sign and its number. -/
theorem fields_ext_narrowValue {y z : Fields ew sw} {q : ℚ} (hs : y.s = z.s) (hy : narrowValue y = some q)
    (hz : narrowValue z = some q) : y = z := by
  have hu := narrowUnit_pos ew sw
  have hvalue := hy.trans hz.symm
  rw [narrowValue_of_finite (narrowValue_eq_some_finite hy), narrowValue_of_finite (narrowValue_eq_some_finite hz),
    Option.some_inj, hs] at hvalue
  have hne : signFactor z.s ≠ 0 := fun h => by simpa [h] using abs_signFactor z.s
  have hgrid := mul_right_cancel₀ hu.ne' (mul_left_cancel₀ hne hvalue)
  exact fields_ext_packedMagnitude hs ((grid_strictMono sw).injective (by exact_mod_cast hgrid))

/-- The canonical classes by the integer bit, for finite patterns (R52). -/
theorem canonical_finite (hcan : (classifyFields80 t).canonical = true) (hmax : t.e ≠ 0x7FFF) :
    t.e = 0 ∨ 2 ^ 63 ≤ t.m.toNat := by
  obtain ⟨-, -, -, -, hunnormal, -⟩ := classifyFields80_table t
  obtain ⟨-, hnot, -⟩ := (canonical_eq_true_iff _).mp hcan
  by_cases h0 : t.e = 0
  · exact .inl h0
  · refine .inr (intBit_eq_true_iff.mp ?_)
    by_contra hint
    exact hnot (hunnormal.mpr ⟨h0, hmax, Bool.not_eq_true _ ▸ hint⟩)

/-- Half a step above the largest number, as powers of two. -/
theorem overflowThreshold_eq (hw : NarrowWidths ew sw) :
    overflowThreshold ew sw = 2 ^ ((bias ew : ℤ) + 1) - 2 ^ ((bias ew : ℤ) - sw - 1) := by
  have hew := hw.ew_gt
  have hexpMax := expMax_eq (ew := ew) (by omega)
  have hbias : 0 < bias ew := Nat.sub_pos_of_lt (Nat.one_lt_two_pow (by omega))
  have hpos := Nat.two_pow_pos sw
  have hlast : infPlace ew sw - 1 = (expMax ew - 1) * 2 ^ sw + (2 ^ sw - 1) := by
    have hinf : infPlace ew sw = (expMax ew - 1) * 2 ^ sw + 2 ^ sw := by
      rw [← Nat.succ_mul, infPlace]; congr 1; omega
    omega
  have hsteps : 2 ^ (expMax ew - 1) = 2 * 2 ^ (expMax ew - 1 - 1) := by rw [← pow_succ']; congr 1; omega
  have hhalf : (2 ^ (expMax ew - 1 - 1) : Nat) / 2 * narrowUnit ew sw = (2 : ℚ) ^ ((bias ew : ℤ) - sw - 1) := by
    have hcast : ((expMax ew - 1 - 1 : Nat) : ℤ) = 2 * bias ew - 1 := by omega
    rw [narrowUnit, Nat.cast_pow, Nat.cast_ofNat, ← zpow_natCast, hcast, div_eq_mul_inv,
      ← zpow_sub_one₀ (two_ne_zero : (2 : ℚ) ≠ 0), ← zpow_add₀ two_ne_zero]
    congr 1; ring
  have htop : (2 : ℚ) ^ ((bias ew : ℤ) + 1) = 4 * 2 ^ sw * 2 ^ ((bias ew : ℤ) - sw - 1) := by
    have hsplit : (bias ew : ℤ) + 1 = 2 + sw + (bias ew - sw - 1) := by ring
    rw [hsplit, zpow_add₀ two_ne_zero, zpow_add₀ two_ne_zero, zpow_natCast]
    norm_num
  rw [overflowThreshold, hlast, grid_of_exponent (by omega) (Nat.sub_le _ _), grid_infPlace (by omega), hsteps, htop,
    ← hhalf, Nat.cast_mul, Nat.cast_mul, Nat.cast_add, Nat.cast_sub (by omega)]
  push_cast
  ring

end Compress

theorem overflowThresholdF32 : overflowThreshold 8 23 = 2 ^ 128 - 2 ^ 103 := overflowThreshold_eq widthsF32
theorem overflowThresholdF64 : overflowThreshold 11 52 = 2 ^ 1024 - 2 ^ 970 := overflowThreshold_eq widthsF64

/-! ### The obligations on widening and narrowing together -/

/-- The lowest bit of a packed pattern is the parity of its magnitude. -/
theorem getLsbD_zero_packF32 {t : Fields 8 23} (h : packedMagnitude t % 2 = 0) : (packF32 t).getLsbD 0 = false := by
  rw [BitVec.getLsbD, Nat.testBit_zero, toNat_packF32, decide_eq_false_iff_not]
  omega

theorem getLsbD_zero_packF64 {t : Fields 11 52} (h : packedMagnitude t % 2 = 0) : (packF64 t).getLsbD 0 = false := by
  rw [BitVec.getLsbD, Nat.testBit_zero, toNat_packF64, decide_eq_false_iff_not]
  omega

/-- Settles O44: rounding on the grid at any widths, taken at F32. -/
theorem compressF32IsCorrectlyRounded : Obligations.CompressF32IsCorrectlyRounded := by
  intro x q hcanonical hq
  rw [← packF80_unpackF80 x] at hq
  have hcan := canonical_finite hcanonical (value_eq_scaledMagnitude (ew := 8) (sw := 23) hq).1
  rw [← overflowThresholdF32, compressF32, classifyF32_packF32]
  refine ⟨fun hlt => ?_, compressFields_infinity widthsF32 hcan hq⟩
  obtain ⟨r, hr, hnearest⟩ := compressFields_nearest widthsF32 hcan hq hlt
  refine ⟨r, by rw [valueF32, unpackF32_packF32, hr], fun z r' hz => ?_⟩
  obtain ⟨hle, htie⟩ := hnearest (unpackF32 z) r' hz
  exact ⟨hle, fun heq hne => getLsbD_zero_packF32 (htie heq hne)⟩

/-- Settles O45: rounding on the grid at any widths, taken at F64. -/
theorem compressF64IsCorrectlyRounded : Obligations.CompressF64IsCorrectlyRounded := by
  intro x q hcanonical hq
  rw [← packF80_unpackF80 x] at hq
  have hcan := canonical_finite hcanonical (value_eq_scaledMagnitude (ew := 11) (sw := 52) hq).1
  rw [← overflowThresholdF64, compressF64, classifyF64_packF64]
  refine ⟨fun hlt => ?_, compressFields_infinity widthsF64 hcan hq⟩
  obtain ⟨r, hr, hnearest⟩ := compressFields_nearest widthsF64 hcan hq hlt
  refine ⟨r, by rw [valueF64, unpackF64_packF64, hr], fun z r' hz => ?_⟩
  obtain ⟨hle, htie⟩ := hnearest (unpackF64 z) r' hz
  exact ⟨hle, fun heq hne => getLsbD_zero_packF64 (htie heq hne)⟩

/-! ### Round trips (R72 d, R134) -/

section RoundTrip
variable {ew sw : Nat}

/-- The widening of a finite pattern is canonical and finite (R71, R73). -/
theorem expandFields_canonical_finite (hw : NarrowWidths ew sw) {t : Fields ew sw} (hmax : t.e ≠ BitVec.allOnes ew) :
    (expandFields t).e = 0 ∨ 2 ^ 63 ≤ (expandFields t).m.toNat := by
  by_cases h0 : t.e ≠ 0 ∨ t.m ≠ 0
  · obtain ⟨e, m, hnormal, -⟩ := expandFields_finite hw hmax h0
    exact .inr (hnormal.m_ge.trans_eq hnormal.toNat_m.symm)
  · rw [not_or, not_not, not_not] at h0
    rw [expandFields_of_zero (Nat.zero_lt_of_lt hw.ew_gt) h0.1 h0.2]
    exact .inl rfl

/-- A finite pattern, widened and narrowed again, is itself: sign and number come back. -/
theorem compress_expand_finite (hw : NarrowWidths ew sw) {t : Fields ew sw} (hmax : t.e ≠ BitVec.allOnes ew) :
    compressFields ew sw (expandFields t) = t := by
  have hvalue := narrowValue_of_finite (mt toNat_eq_expMax_iff.mp hmax)
  have hexact := compressFields_exact hw (expandFields_canonical_finite hw hmax) (valueF80_expandFields hw hvalue)
    hvalue
  have hs : (compressFields ew sw (expandFields t)).s = t.s :=
    (compressFields_s _).trans (expandFields_sign_class hw t).1
  exact fields_ext_narrowValue hs hexact hvalue

/-- The widened payload lies under the integer and quiet bits, and is truncated back to the same places. -/
theorem nanPayload_alignFraction {n : Nat} (hn : n ≤ 61) (m : BitVec (1 + n)) :
    nanPayload (1 + n) (alignFraction m ||| 0xC000000000000000) = m ||| BitVec.twoPow (1 + n) n := by
  have hshift : narrowShift (1 + n) = 62 - n := by rw [narrowShift]; omega
  refine BitVec.eq_of_getLsbD_eq fun i hi => ?_
  rw [nanPayload_eq_append (by omega), BitVec.getLsbD_append, BitVec.getLsbD_or, BitVec.getLsbD_twoPow]
  obtain hlow | rfl : i < n ∨ i = n := by omega
  · have hhigh : (0xC000000000000000 : BitVec 64).getLsbD (62 - n + i) = false := by
      have hmask : (0xC000000000000000 : BitVec 64) = BitVec.twoPow 64 63 ||| BitVec.twoPow 64 62 := rfl
      have h63 : 63 ≠ 62 - n + i := by omega
      have h62 : 62 ≠ 62 - n + i := by omega
      rw [hmask, BitVec.getLsbD_or, BitVec.getLsbD_twoPow, BitVec.getLsbD_twoPow]
      simp [h63, h62]
    have halign : (alignFraction m).getLsbD (62 - n + i) = m.getLsbD i := by
      rw [alignFraction, hshift, BitVec.getLsbD_shiftLeft, BitVec.getLsbD_setWidth]
      have h1 : 62 - n + i < 64 := by omega
      have h2 : i < 64 := by omega
      simp [h1, h2]
    rw [if_pos hlow, BitVec.getLsbD_extractLsb', BitVec.getLsbD_or, hhigh, halign]
    simp [hlow, hlow.ne']
  · simp

/-- A NaN comes back with its quiet bit set and the rest of its payload (R67, R82). -/
theorem compress_expand_nan {n : Nat} (hn : n ≤ 61) {t : Fields ew (1 + n)} (hmax : t.e = BitVec.allOnes ew)
    (hm : t.m ≠ 0) : compressFields ew (1 + n) (expandFields t) = { t with m := t.m ||| BitVec.twoPow (1 + n) n } := by
  have hquiet : (alignFraction t.m ||| 0xC000000000000000).getLsbD 62 = true := by
    rw [BitVec.getLsbD_or]; simp
  have hfraction : fraction (alignFraction t.m ||| 0xC000000000000000) ≠ 0 := fun h => by
    obtain h | h := fraction_eq_zero_iff.mp h <;> rw [h] at hquiet <;> exact absurd hquiet (by decide)
  rw [expandFields_of_nan hmax hm, compressFields_of_nan rfl hfraction, nanPayload_alignFraction hn, ofNat_expMax, hmax]

/-- An infinity comes back. -/
theorem compress_expand_infinity {t : Fields ew sw} (hmax : t.e = BitVec.allOnes ew) (hm : t.m = 0) :
    compressFields ew sw (expandFields t) = t := by
  rw [expandFields_of_infinity hmax hm, infF80,
    compressFields_of_infinity rfl (fraction_eq_zero_iff.mpr (.inl rfl)), infNarrow, ofNat_expMax, ← hmax, ← hm]

/-- Every narrow pattern comes back, a signalling NaN with its quiet bit set (R72 d). -/
theorem compress_expand {n : Nat} (hw : NarrowWidths ew (1 + n)) (t : Fields ew (1 + n)) :
    compressFields ew (1 + n) (expandFields t) =
      if classifyNarrow t = .signallingNaN then { t with m := t.m ||| BitVec.twoPow (1 + n) n } else t := by
  have hn : n ≤ 61 := by have := hw.sw_lt; omega
  obtain ⟨-, -, -, -, hsignalling, -⟩ := classifyNarrow_table (Nat.zero_lt_of_lt hw.ew_gt) t
  rw [Nat.add_sub_cancel_left] at hsignalling
  by_cases hmax : t.e = BitVec.allOnes ew
  · by_cases hm : t.m = 0
    · rw [compress_expand_infinity hmax hm, if_neg fun h => (hsignalling.mp h).2.1 hm]
    · rw [compress_expand_nan hn hmax hm]
      cases hq : t.m.getLsbD n with
      | false => rw [if_pos (hsignalling.mpr ⟨hmax, hm, hq⟩)]
      | true =>
        have hsame : t.m ||| BitVec.twoPow (1 + n) n = t.m := by
          refine BitVec.eq_of_getLsbD_eq fun i hi => ?_
          rw [BitVec.getLsbD_or, BitVec.getLsbD_twoPow]
          by_cases h : n = i
          · subst h; simp [hq]
          · simp [h]
        rw [hsame, ite_self]
  · rw [compress_expand_finite hw hmax, if_neg fun h => hmax (hsignalling.mp h).1]

end RoundTrip

/-! The quiet bit in a packed pattern. -/

theorem packF32_or_quietBit (t : Fields 8 23) :
    packF32 { t with m := t.m ||| BitVec.twoPow 23 22 } = packF32 t ||| 0x00400000 := by
  have hbit : (0x00400000 : F32) = (0#1 ++ 0#8 : BitVec 9) ++ BitVec.twoPow 23 22 := rfl
  rw [hbit, packF32, packF32]
  exact (BitVec.or_append.trans (by simp)).symm

theorem packF64_or_quietBit (t : Fields 11 52) :
    packF64 { t with m := t.m ||| BitVec.twoPow 52 51 } = packF64 t ||| 0x0008000000000000 := by
  have hbit : (0x0008000000000000 : F64) = (0#1 ++ 0#11 : BitVec 12) ++ BitVec.twoPow 52 51 := rfl
  rw [hbit, packF64, packF64]
  exact (BitVec.or_append.trans (by simp)).symm

/-- Settles O46: the round trip at any widths, taken at the two narrow formats. -/
theorem narrowPatternsSurviveTheRoundTrip : Obligations.NarrowPatternsSurviveTheRoundTrip := by
  refine ⟨fun v => ?_, fun v => ?_⟩
  · rw [expandF32, compressF32_packF80, compress_expand (n := 22) widthsF32, apply_ite packF32, packF32_or_quietBit,
      packF32_unpackF32, classifyF32]
  · rw [expandF64, compressF64_packF80, compress_expand (n := 51) widthsF64, apply_ite packF64, packF64_or_quietBit,
      packF64_unpackF64, classifyF64]

/-! Widening through F80 (R134 d). -/

/-- A number within the narrow format's normal range and precision is one of the format's numbers. -/
theorem exists_narrowValue {ew sw : Nat} (hw : NarrowWidths ew sw) (s : BitVec 1) {e m : Nat}
    (hlow : 16383 - bias ew < e) (hhigh : e ≤ 16383 + bias ew) (hm : 2 ^ 63 ≤ m)
    (hlt : m < 2 ^ 64) (hdvd : 2 ^ (63 - sw) ∣ m) :
    ∃ z : Fields ew sw, narrowValue z = some (signFactor s * (m * ulp e)) := by
  have ⟨hew, _, hsw, _⟩ := hw
  obtain ⟨k, rfl⟩ := hdvd
  obtain ⟨e1, rfl⟩ : ∃ e1, e = 16383 - bias ew + e1 := ⟨e - (16383 - bias ew), by omega⟩
  have hk : 2 ^ sw ≤ k := by
    refine Nat.le_of_mul_le_mul_left ?_ (Nat.two_pow_pos (63 - sw))
    rwa [← pow_add, Nat.sub_add_cancel hsw.le]
  have hk' : k < 2 ^ (sw + 1) := by
    refine Nat.lt_of_mul_lt_mul_left (a := 2 ^ (63 - sw)) (hlt.trans_eq ?_)
    rw [← pow_add]; congr 1; omega
  have hexp : e1 < expMax ew := by have := expMax_eq (ew := ew) (by omega); omega
  have he : (BitVec.ofNat ew e1).toNat = e1 := by
    rw [BitVec.toNat_ofNat, Nat.mod_eq_of_lt (hexp.trans_le (Nat.sub_le _ _))]
  have hm : (BitVec.ofNat sw (k - 2 ^ sw)).toNat = k - 2 ^ sw := by
    rw [BitVec.toNat_ofNat, Nat.mod_eq_of_lt (by omega)]
  have hplace : packedMagnitude (⟨s, BitVec.ofNat ew e1, BitVec.ofNat sw (k - 2 ^ sw)⟩ : Fields ew sw) =
      e1 * 2 ^ sw + (k - 2 ^ sw) := by rw [packedMagnitude, he, hm]
  refine ⟨⟨s, BitVec.ofNat ew e1, BitVec.ofNat sw (k - 2 ^ sw)⟩, ?_⟩
  rw [narrowValue_of_finite (he.trans_ne hexp.ne), hplace, grid_of_exponent (by omega) (by omega),
    Nat.add_sub_cancel' hk, Nat.cast_mul, Nat.cast_pow, Nat.cast_ofNat, mul_assoc (k : ℚ),
    ← mul_ulp_of_normal hw (by omega)]
  push_cast
  congr 1
  ring

/-- Every number of F32 is one of F64. -/
theorem exists_valueF64 {t : Fields 8 23} {q : ℚ} (h : narrowValue t = some q) :
    ∃ z : Fields 11 52, narrowValue z = some q := by
  have hfinite := narrowValue_eq_some_finite h
  by_cases h0 : t.e ≠ 0 ∨ t.m ≠ 0
  · obtain ⟨e, m, hnormal, hlow, hhigh, hdvd, hvalue⟩ :=
      expandFields_finite widthsF32 (mt toNat_eq_expMax_iff.mpr hfinite) h0
    have hbias8 : bias 8 = 127 := rfl
    have hbias11 : bias 11 = 1023 := rfl
    rw [← h, hvalue]
    exact exists_narrowValue widthsF64 t.s (by omega) (by omega) hnormal.m_ge hnormal.m_lt
      ((pow_dvd_pow 2 (by decide)).trans hdvd)
  · rw [not_or, not_not, not_not] at h0
    refine ⟨zeroFields 11 52 t.s, ?_⟩
    have hfinite64 : (zeroFields 11 52 t.s).e.toNat ≠ expMax 11 :=
      (by decide : (0 : BitVec 11).toNat ≠ expMax 11)
    rw [← h, narrowValue_of_finite hfinite, narrowValue_of_finite hfinite64]
    simp [packedMagnitude, zeroFields, grid, h0]

/-- Settles O37: widening at any widths; and a widened F32 is narrowed to the F64 of its number. -/
theorem wideningIsExact : Obligations.WideningIsExact := by
  refine ⟨fun b q hq => valueF80_expandFields widthsF32 hq, fun b q hq => valueF80_expandFields widthsF64 hq,
    fun b q hq => ?_⟩
  obtain ⟨z, hz⟩ := exists_valueF64 hq
  have hmax := mt toNat_eq_expMax_iff.mpr (narrowValue_eq_some_finite hq)
  rw [valueF64, expandF32, compressF64_packF80, unpackF64_packF64]
  exact compressFields_exact widthsF64 (expandFields_canonical_finite widthsF32 hmax)
    (valueF80_expandFields widthsF32 hq) hz

/-! Loading and storing in one format (R134 a, c). -/

/-- A load and a store-and-pop after it: what was pushed is what is returned, `top` is back, and one slot was written.
-/
theorem commandRun_load_store {n : Nat} {cl cs : Command} {l st : Instr} {v : F80} {w : F80 → BitVec n}
    (hl : decode cl = some l) (hs : decode cs = some st) (hload : ∀ s, exec l s = .next (s.push v).noDataOut)
    (hstore : ∀ s, exec st s = .next (s.pop.2.dataOut (w (s.readSlot s.top)))) (s : State) :
    (commandRun [cl, cs] s).1.map (fun o => (o.doutValid, o.dout)) = [(false, 0), (true, (w v).setWidth 80)] ∧
      (commandRun [cl, cs] s).2.top = s.top ∧ s.SameSlotsBut (commandRun [cl, cs] s).2 (s.top - 1) := by
  have hread : (s.push v).noDataOut.readSlot (s.push v).noDataOut.top = v := by
    simp [push_eq, State.noDataOut]
  rw [commandRun_cons, hardwareStep_of_exec hl (hload s), commandRun_cons, hardwareStep_of_exec hs (hstore _), hread,
    commandRun_nil]
  exact ⟨rfl, BitVec.sub_add_cancel s.top 1, push_sameSlotsBut s v⟩

/-- Settles O54: the value stored is the value loaded, unchanged or after its round trip. -/
theorem loadThenStoreReturnsThePattern : Obligations.LoadThenStoreReturnsThePattern := by
  obtain ⟨hF32, hF64⟩ := narrowPatternsSurviveTheRoundTrip
  refine ⟨fun v d s => ?_, fun d d' s => ?_, fun d d' s => ?_⟩
  · have hrun := commandRun_load_store (w := id) (decode_loadF80 v) (decode_storeAndPopF80 d) (exec_loadF80 v)
      exec_storeAndPopF80 s
    rwa [id, BitVec.setWidth_eq] at hrun
  · have hrun := commandRun_load_store (decode_loadF32_low d) (decode_storeAndPopF32 d') (exec_loadF32 _)
      exec_storeAndPopF32 s
    rwa [hF32] at hrun
  · have hrun := commandRun_load_store (decode_loadF64_low d) (decode_storeAndPopF64 d') (exec_loadF64 _)
      exec_storeAndPopF64 s
    rwa [hF64] at hrun

end Sys2Proof.Machine
end
